-- ==== Sys2Proof/Config.lean ====
section
/-! DEFINITION. What an implementation of the block fixes: the operand width W (00_scope.md R5). KEYSIZE is 8 and is
not a parameter (R4). The choices the spec leaves free (the edge at which the engine completes) are plain data in
State, so there is no opaque constant here. -/

namespace Sys2Proof

/-- The default of the operand width W (00_scope.md R5). W itself is a parameter of every type and definition of the model
that depends on it; where a type is written without it, it is this default (log 1). -/
abbrev Config.W : Nat := 32

/-- The constraint of 00_scope.md R5 on W. -/
abbrev Config.WidthAllowed (W : Nat) : Prop := 16 ≤ W

/-- The default meets the constraint. -/
theorem Config.default_width_allowed : Config.WidthAllowed Config.W := by decide

end Sys2Proof
end

