-- ==== Sys2Proof/Word.lean ====
section
/-! DEFINITION. The word, index and byte types of the port and the key bank type (00_scope.md R4, R5; 20_memory.md R40, R41).
The width W is a parameter with a default (00_scope.md R5): `Word` is a word of the default width, `Word W` one of width W. -/

namespace Sys2Proof

/-- A W-bit word: every register, `wdata` and `rdata` (00_scope.md R5). -/
abbrev Word (W : Nat := Config.W) := BitVec W

/-- A register index: the 5-bit `addr` of the port (20_memory.md R40, R41). -/
abbrev Index := BitVec 5

/-- A byte of an instruction laid out as bytes (log 9). -/
abbrev Byte := BitVec 8

/-- A key bank: exactly 8 words, element `j` at position `j` (00_scope.md R4; 10_state.md R20, R21). -/
abbrev Bank (W : Nat := Config.W) := Vector (Word W) 8

end Sys2Proof
end

