-- ==== Sys2Proof/Syntax.lean ====
section
/-! DEFINITION. The instructions: one constructor for each row of spec/opcode_table.json, in the table's order. -/

namespace Sys2Proof

/-- The seven commands of 30_encoding.md R62 and the two port accesses of 20_memory.md R43, R44. No command has an
explicit operand (30_encoding.md R64). The width W of a written word is the block's (00_scope.md R5). -/
inductive Instr (W : Nat := Config.W) where
  /-- Modular multiplicative inverse (41_number_theory.md R95). -/
  | modinv
  /-- Greatest common divisor (41_number_theory.md R93). -/
  | gcd
  /-- Primality test (41_number_theory.md R90). -/
  | isprime
  /-- Superincreasing check of PRIV (42_superincreasing.md R111). -/
  | supchk
  /-- Knapsack sum of one byte (43_transcoder.md R121). -/
  | ksum
  /-- Greedy decoding of one cipher value (43_transcoder.md R123). -/
  | gdec
  /-- Acknowledge: clear DONE, ERR, ECODE (40_command_protocol.md R74). -/
  | ack
  /-- Host write of `wdata` to the register at `addr` (20_memory.md R44). -/
  | wr (addr : Index) (wdata : Word W)
  /-- Host read of the register at `addr` (20_memory.md R43). -/
  | rd (addr : Index)
  deriving DecidableEq, Repr

end Sys2Proof
end

