-- ==== Sys2Proof/WellFormed.lean ====
section
/-! DEFINITION. Which terms of Instr stand for an access in its one canonical spelling. The ranges of the index (5 bits)
and the word (W bits) are carried by the types. -/

namespace Sys2Proof

/-- One spelling per access: a write of a legal command word (1 to 7, 30_encoding.md R62) to CMD (index 0x00) is spelled
as that command, since a mnemonic means `WR CMD, OP` (30_encoding.md R66). Every other term is well formed. -/
def Instr.wf {W : Nat} : Instr W → Bool
  | .wr addr wdata => !(addr == 0 && (1 ≤ wdata.toNat && wdata.toNat ≤ 7))
  | .modinv | .gcd | .isprime | .supchk | .ksum | .gdec | .ack | .rd _ => true

end Sys2Proof
end

