-- ==== Sys2Proof/Decode.lean ====
section
/-! DEFINITION. Decoding and encoding: the command word (30_encoding.md R60 to R63), the port access it is issued by
(R66), the transaction record (R65), and both formats as bytes (log 9). Decoding is total and rejects by name. -/

namespace Sys2Proof

variable {W : Nat}

/-- The field OP, bits 3:0 of a command word (30_encoding.md R61). -/
def opField (v : Word W) : BitVec 4 := v.extractLsb' 0 4

/-- The field ZERO, bits W-1:4 of a command word (30_encoding.md R61). -/
def zeroField (v : Word W) : BitVec (W - 4) := v.extractLsb' 4 (W - 4)

/-- The word is one of the seven commands: not illegal in the sense of 30_encoding.md R63. -/
def legalCommand (v : Word W) : Bool :=
  zeroField v == 0 && (opField v != 0 && opField v < 8)

/-- The opcode map of 30_encoding.md R62 on the field OP. -/
def instrOfOpcode (op : BitVec 4) : Option (Instr W) :=
  match op.toNat with
  | 1 => some .modinv
  | 2 => some .gcd
  | 3 => some .isprime
  | 4 => some .supchk
  | 5 => some .ksum
  | 6 => some .gdec
  | 7 => some .ack
  | _ => none

/-- The command a word written to CMD stands for; none when the word is illegal (30_encoding.md R62, R63). -/
def decodeCommand (v : Word W) : Option (Instr W) :=
  if legalCommand v then instrOfOpcode (opField v) else none

/-- One access of the port: the pins `we`, `addr`, `wdata` of a cycle with `sel = 1` (20_memory.md R41). -/
structure Access (W : Nat := Config.W) where
  we : Bool
  addr : Index
  wdata : Word W
  deriving DecidableEq, Repr

/-- The instruction an access stands for (30_encoding.md R66): a read, a command when a legal command word is written
to CMD, any other write. The pin `wdata` is ignored on a read (20_memory.md R41). -/
def decodeAccess (a : Access W) : Instr W :=
  if a.we then
    if a.addr = 0 then (decodeCommand a.wdata).getD (.wr a.addr a.wdata) else .wr a.addr a.wdata
  else .rd a.addr

/-- Why bytes are no instruction. -/
inductive DecodeError (W : Nat := Config.W) where
  /-- The bytes of a word that is no command (30_encoding.md R63). -/
  | illegalCommand (v : Word W)
  /-- A bit set above the W bits of a command word or the W+6 of a record (30_encoding.md R61, R65). -/
  | paddingNotZero (n : Nat)
  /-- A record of a read whose `wdata` is not 0 (30_encoding.md R65: "0 in a read record"; log 10). -/
  | readWithData (addr : Index) (wdata : Word W)
  /-- Neither the length of a command word nor that of a record (30_encoding.md R60). -/
  | badLength (n : Nat)
  deriving DecidableEq, Repr

/-- The fields of a transaction record `we, addr, wdata` of W+6 bits (30_encoding.md R65). -/
def unpackRecord (r : BitVec (W + 6)) : Access W :=
  { we := r.getLsbD (W + 5), addr := r.extractLsb' W 5, wdata := r.extractLsb' 0 W }

/-- The transaction record of an access (30_encoding.md R65). -/
def packRecord (a : Access W) : BitVec (W + 6) :=
  ((BitVec.ofBool a.we ++ a.addr) ++ a.wdata).setWidth (W + 6)

/-- The instruction of a transaction record (30_encoding.md R65, R66). -/
def decodeRecord (r : BitVec (W + 6)) : Except (DecodeError W) (Instr W) :=
  let a := unpackRecord r
  if !a.we && a.wdata != 0 then .error (.readWithData a.addr a.wdata) else .ok (decodeAccess a)

/-- The bytes of a number, the least significant first, `k` of them (log 9). -/
def bytesOfNat : Nat → Nat → List Byte
  | 0, _ => []
  | k + 1, n => BitVec.ofNat 8 n :: bytesOfNat k (n / 256)

/-- The number bytes stand for, the least significant first (log 9). -/
def natOfBytes : List Byte → Nat
  | [] => 0
  | b :: bs => b.toNat + 256 * natOfBytes bs

/-- How many bytes a command word takes: 4 at W = 32 (log 9). -/
abbrev commandBytes (W : Nat) : Nat := (W + 7) / 8

/-- How many bytes a transaction record of W+6 bits takes: one more, 5 at W = 32 ("10 hexadecimal digits", 30_encoding.md
R65), so that at every W the two formats differ in length (R60; log 9). -/
abbrev recordBytes (W : Nat) : Nat := commandBytes W + 1

/-- The decoder, total on any bytes: a command word or a transaction record, told apart by their one length each
(30_encoding.md R60). -/
def decode (bs : List Byte) : Except (DecodeError W) (Instr W) :=
  if bs.length = commandBytes W then
    if natOfBytes bs < 2 ^ W then
      match decodeCommand (BitVec.ofNat W (natOfBytes bs)) with
      | some i => .ok i
      | none => .error (.illegalCommand (BitVec.ofNat W (natOfBytes bs)))
    else .error (.paddingNotZero (natOfBytes bs))
  else if bs.length = recordBytes W then
    if natOfBytes bs < 2 ^ (W + 6) then decodeRecord (BitVec.ofNat (W + 6) (natOfBytes bs))
    else .error (.paddingNotZero (natOfBytes bs))
  else .error (.badLength bs.length)

/-- The command word of a command (30_encoding.md R62); none for a port access. -/
def Instr.commandWord : Instr W → Option (Word W)
  | .modinv => some 0x1
  | .gcd => some 0x2
  | .isprime => some 0x3
  | .supchk => some 0x4
  | .ksum => some 0x5
  | .gdec => some 0x6
  | .ack => some 0x7
  | .wr _ _ => none
  | .rd _ => none

/-- The port access an instruction is (30_encoding.md R66). -/
def Instr.access : Instr W → Access W
  | .modinv => { we := true, addr := 0, wdata := 0x1 }
  | .gcd => { we := true, addr := 0, wdata := 0x2 }
  | .isprime => { we := true, addr := 0, wdata := 0x3 }
  | .supchk => { we := true, addr := 0, wdata := 0x4 }
  | .ksum => { we := true, addr := 0, wdata := 0x5 }
  | .gdec => { we := true, addr := 0, wdata := 0x6 }
  | .ack => { we := true, addr := 0, wdata := 0x7 }
  | .wr addr wdata => { we := true, addr := addr, wdata := wdata }
  | .rd addr => { we := false, addr := addr, wdata := 0 }

/-- The record of any instruction as bytes (30_encoding.md R65, R66). -/
def encodeRecord (i : Instr W) : List Byte := bytesOfNat (recordBytes W) (packRecord i.access).toNat

/-- The encoder: a command as its command word, a port access as its transaction record (30_encoding.md R60). -/
def encode (i : Instr W) : List Byte :=
  match i.commandWord with
  | some v => bytesOfNat (commandBytes W) v.toNat
  | none => encodeRecord i

/-- The instruction the decoder reads from `nbits` bits numbered as spec/opcode_table.json numbers them, the bits above
the table's being 0. The table is written for the default width. -/
def decodeTableWord (nbits w : Nat) : Option Instr :=
  match decode (bytesOfNat ((nbits + 7) / 8) w) with
  | .ok i => some i
  | .error _ => none

/-- The port access such a word is: a command word is written to CMD (30_encoding.md R60, R66), a longer word is a
transaction record (R65). -/
def accessOfTableWord (nbits w : Nat) : Access :=
  if (nbits + 7) / 8 ≤ commandBytes Config.W then { we := true, addr := 0, wdata := BitVec.ofNat Config.W w }
  else unpackRecord (BitVec.ofNat (Config.W + 6) w)

end Sys2Proof
end

