-- ==== Sys2Proof/Machine/State.lean ====
section
/-! DEFINITION. The state of the block (10_state.md R10), its reset value (R25), the fault codes (60_exceptions.md R141),
the outcomes of a command (40_command_protocol.md R73) and the clock edges that drive the machine (20_memory.md R41). -/

namespace Sys2Proof.Machine

/-- The eight fault codes of 60_exceptions.md R141. They are recorded in STATUS and never stop the machine. -/
inductive FaultCode where
  /-- 1: a host write while BUSY = 1 (60_exceptions.md R142). -/
  | eBusy
  /-- 2: an illegal command word (60_exceptions.md R143). -/
  | eIllegalCmd
  /-- 3: a write to a reserved or read-only index (60_exceptions.md R144). -/
  | eAddr
  /-- 4: a write to locked key material (60_exceptions.md R145). -/
  | eLocked
  /-- 5: the modulus operand is 0 (60_exceptions.md R146). -/
  | eZeroMod
  /-- 6: the operands of MODINV are not coprime (60_exceptions.md R146). -/
  | eNotCoprime
  /-- 7: the operand of KSUM is no byte (60_exceptions.md R146). -/
  | eOperand
  /-- 8: the knapsack sum does not fit W bits (60_exceptions.md R146). -/
  | eOverflow
  deriving DecidableEq, Repr

/-- The outcome of a command (40_command_protocol.md R73): a result, exact and not yet narrowed to W bits, or a fault. -/
inductive CmdOutcome where
  | result (res : Nat) (flag : Bool)
  | fault (code : FaultCode)
  deriving DecidableEq, Repr

/-- The registers of the index map of 20_memory.md R42. -/
inductive Reg where
  | cmd
  | status
  | ctrl
  | opa
  | opb
  | modulus
  | invmult
  | res
  | priv (j : Fin 8)
  | pub (j : Fin 8)
  deriving DecidableEq, Repr

/-- One rising clock edge of a block of width W: the input pins of the cycle it ends (20_memory.md R41), and whether the
engine takes its completion at this edge if a command is in flight (70_reset_and_hazards.md R181; log 3). -/
structure Edge (W : Nat := Config.W) where
  rst : Bool
  sel : Bool
  we : Bool
  addr : Index
  wdata : Word W
  completes : Bool
  deriving DecidableEq, Repr

/-- The state of a block of width W (00_scope.md R5): the registers of 10_state.md R10 with STATUS and CTRL held as their
fields (R13, R18), and two fields of the model's own, `rdata` (log 5) and `edges` (log 2). -/
structure State (W : Nat := Config.W) where
  /-- CMD, the last accepted command word (10_state.md R22). -/
  cmd : Word W
  /-- STATUS.BUSY (10_state.md R14). -/
  busy : Bool
  /-- STATUS.DONE (10_state.md R15). -/
  done : Bool
  /-- STATUS.FLAG (10_state.md R16). -/
  flag : Bool
  /-- STATUS.ERR (10_state.md R17). -/
  err : Bool
  /-- STATUS.ECODE: no code (reads 0), or the first code recorded (10_state.md R17; 93_implementation_defined.md U13). -/
  ecode : Option FaultCode
  /-- CTRL.IE (10_state.md R18). -/
  ie : Bool
  /-- CTRL.KEYLOCK (10_state.md R18). -/
  keylock : Bool
  /-- OPA (10_state.md R11). -/
  opa : Word W
  /-- OPB (10_state.md R11). -/
  opb : Word W
  /-- MODULUS (10_state.md R19). -/
  modulus : Word W
  /-- INVMULT (10_state.md R19). -/
  invmult : Word W
  /-- RES (10_state.md R11). -/
  res : Word W
  /-- PRIV[0..7] (10_state.md R20). -/
  priv : Bank W
  /-- PUB[0..7] (10_state.md R21). -/
  pub : Bank W
  /-- The model's own: what the output `rdata` showed in the cycle the last step ended (20_memory.md R41; log 5). -/
  rdata : Word W
  /-- The model's own: the coming clock edges, the next one first (log 2). -/
  edges : List (Edge W)
  deriving DecidableEq, Repr

/-- Why the machine stops. The spec's faults are recorded codes and stop nothing (60_exceptions.md R140). -/
inductive Fault where
  /-- A completion with BUSY = 1 and CMD[3:0] outside 1 to 6, which 40_command_protocol.md R76 excludes; raised by
  `completeInFlight`, safe, and met in no state of the invariant (log 8). -/
  | strayOpcode
  deriving DecidableEq, Repr

/-- Why an instruction has no meaning. -/
inductive Refusal where
  /-- An instruction that has no meaning yet; raised by no arm of `exec`; safe. -/
  | notModelled (mnemonic : String)
  deriving DecidableEq, Repr

variable {W : Nat}

/-- Every register 0: the state right after reset, at any width (10_state.md R25). `rdata` and `edges` are the model's own
fields: DESIGN CHOICE 0 and empty (log 5, log 2). -/
def allZero : State W :=
  { cmd := 0, busy := false, done := false, flag := false, err := false, ecode := none,
    ie := false, keylock := false, opa := 0, opb := 0, modulus := 0, invmult := 0, res := 0,
    priv := Vector.replicate 8 0, pub := Vector.replicate 8 0, rdata := 0, edges := [] }

/-- The machine right after reset, at the default width (10_state.md R25). -/
def State.reset : State := allZero

end Sys2Proof.Machine
end

