-- ==== Sys2Proof/Machine/Flags.lean ====
section
/-! DEFINITION. STATUS and CTRL as words (10_state.md R13, R18), the fault codes' numbers (60_exceptions.md R141), the FLAG
of each command (10_state.md R16) and the interrupt line (60_exceptions.md R150). -/

namespace Sys2Proof.Machine

variable {W : Nat}

/-- The number of a fault code (60_exceptions.md R141). -/
def FaultCode.number : FaultCode → BitVec 4
  | .eBusy => 1
  | .eIllegalCmd => 2
  | .eAddr => 3
  | .eLocked => 4
  | .eZeroMod => 5
  | .eNotCoprime => 6
  | .eOperand => 7
  | .eOverflow => 8

/-- The field ECODE as its 4 bits: 0 when no code is held (10_state.md R17; 60_exceptions.md R141). -/
def ecodeBits : Option FaultCode → BitVec 4
  | none => 0
  | some c => c.number

/-- The word a read of STATUS returns: ECODE, ERR, FLAG, DONE, BUSY from bit 7 down to bit 0, the rest 0
(10_state.md R13). -/
def statusWord (s : State W) : Word W :=
  (ecodeBits s.ecode ++ BitVec.ofBool s.err ++ BitVec.ofBool s.flag ++ BitVec.ofBool s.done
    ++ BitVec.ofBool s.busy).setWidth W

/-- The word a read of CTRL returns: KEYLOCK in bit 1, IE in bit 0, the rest 0 (10_state.md R18). -/
def ctrlWord (s : State W) : Word W :=
  (BitVec.ofBool s.keylock ++ BitVec.ofBool s.ie).setWidth W

/-- The interrupt line, a level: DONE and IE (60_exceptions.md R150). -/
def irq (s : State W) : Bool := s.done && s.ie

/-- FLAG after MODINV (10_state.md R16). -/
def flagModinv : Bool := false

/-- FLAG after GCD: the operands are coprime (10_state.md R16; 41_number_theory.md R93). -/
def flagGcd (g : Nat) : Bool := g == 1

/-- FLAG after ISPRIME (10_state.md R16; 41_number_theory.md R90). -/
def flagIsprime (p : Bool) : Bool := p

/-- FLAG after SUPCHK (10_state.md R16; 42_superincreasing.md R111). -/
def flagSupchk (s : Bool) : Bool := s

/-- FLAG after KSUM (10_state.md R16). -/
def flagKsum : Bool := false

/-- FLAG after GDEC: the residual is 0 (10_state.md R16; 43_transcoder.md R123). -/
def flagGdec (residual : Nat) : Bool := residual == 0

end Sys2Proof.Machine
end

