-- ==== Sys2Proof/Machine/Operands.lean ====
section
/-! DEFINITION. How registers are named and read: the index map (20_memory.md R42) with its access classes (R45, R46;
60_exceptions.md R145), the registers as unsigned numbers (00_scope.md R6) and the bit order of a byte (20_memory.md R50). -/

namespace Sys2Proof.Machine

variable {W : Nat}

/-- The element number of a bank index: its low 3 bits (92_eei_decisions.md D5; 20_memory.md R42). -/
def elementOf (idx : Index) : Fin 8 := ⟨idx.toNat % 8, Nat.mod_lt _ (by decide)⟩

/-- The register at an index; none for a reserved index (20_memory.md R42, R45). -/
def regOf (idx : Index) : Option Reg :=
  if 0x18 ≤ idx.toNat then some (.pub (elementOf idx))
  else if 0x10 ≤ idx.toNat then some (.priv (elementOf idx))
  else
    match idx.toNat with
    | 0x00 => some .cmd
    | 0x01 => some .status
    | 0x02 => some .ctrl
    | 0x04 => some .opa
    | 0x05 => some .opb
    | 0x06 => some .modulus
    | 0x07 => some .invmult
    | 0x08 => some .res
    | _ => none

/-- The index of a register (20_memory.md R42). -/
def Reg.index : Reg → Index
  | .cmd => 0x00
  | .status => 0x01
  | .ctrl => 0x02
  | .opa => 0x04
  | .opb => 0x05
  | .modulus => 0x06
  | .invmult => 0x07
  | .res => 0x08
  | .priv j => BitVec.ofNat 5 (0x10 + j.val)
  | .pub j => BitVec.ofNat 5 (0x18 + j.val)

/-- The read-only registers STATUS and RES (20_memory.md R46). -/
def Reg.readOnly : Reg → Bool
  | .status | .res => true
  | .cmd | .ctrl | .opa | .opb | .modulus | .invmult | .priv _ | .pub _ => false

/-- The key material registers, which KEYLOCK locks (10_state.md R18; 60_exceptions.md R145). -/
def Reg.lockable : Reg → Bool
  | .modulus | .invmult | .priv _ | .pub _ => true
  | .cmd | .status | .ctrl | .opa | .opb | .res => false

/-- The current value of a register (20_memory.md R43). -/
def State.get (s : State W) : Reg → Word W
  | .cmd => s.cmd
  | .status => statusWord s
  | .ctrl => ctrlWord s
  | .opa => s.opa
  | .opb => s.opb
  | .modulus => s.modulus
  | .invmult => s.invmult
  | .res => s.res
  | .priv j => s.priv[j]
  | .pub j => s.pub[j]

/-- Element `j` of a bank as an unsigned number (00_scope.md R6; 10_state.md R20, R21). -/
def element (b : Bank W) (j : Fin 8) : Nat := (b[j]).toNat

/-- The element numbers 0 to 7 in rising order (00_scope.md R4). -/
def elementNumbers : List (Fin 8) := [0, 1, 2, 3, 4, 5, 6, 7]

/-- The weight of bit position `j` of a byte, position 0 being the most significant (20_memory.md R50). -/
def positionWeight (j : Fin 8) : Nat := 2 ^ (7 - j.val)

/-- Bit position `j` of a byte, most significant first: `b[7-j]` (20_memory.md R50). -/
def bitAt (b : Nat) (j : Fin 8) : Bool := b.testBit (7 - j.val)

end Sys2Proof.Machine
end

