-- ==== Sys2Proof/Machine/Ops.lean ====
section
/-! DEFINITION. The shared operations: recording a fault (60_exceptions.md R147) and clearing it (40_command_protocol.md
R74), accepting a command (R70), the host's read and write (20_memory.md R43, R44), and completion (40_command_protocol.md
R73). -/

namespace Sys2Proof.Machine

variable {W : Nat}

/-- `raise Fault(code)`: the block's whole exception entry (60_exceptions.md R147, R151). The first fault is kept. -/
def raise (code : FaultCode) (s : State W) : State W :=
  if s.err then s else { s with err := true, ecode := some code }

/-- The effect of ACK at its accept edge: the block's exception return (40_command_protocol.md R74; 60_exceptions.md
R152). -/
def acknowledge (v : Word W) (s : State W) : State W :=
  { s with cmd := v, done := false, err := false, ecode := none }

/-- Accepting a computing command (40_command_protocol.md R70, last case). -/
def accept (v : Word W) (s : State W) : State W :=
  { s with cmd := v, busy := true, done := false }

/-- A word written to CMD with BUSY = 0 (40_command_protocol.md R70). -/
def issue (v : Word W) (s : State W) : State W :=
  if zeroField v ≠ 0 ∨ opField v = 0 ∨ 8 ≤ opField v then raise .eIllegalCmd s
  else if opField v = 7 then acknowledge v s
  else accept v s

/-- A write of CTRL: IE is written, KEYLOCK is only ever set, other bits are ignored (10_state.md R18). -/
def writeCtrl (v : Word W) (s : State W) : State W :=
  { s with ie := v.getLsbD 0, keylock := s.keylock || v.getLsbD 1 }

/-- Case 6 of 20_memory.md R44: the whole word is stored. CMD, CTRL, STATUS and RES are not written this way. -/
def State.put (s : State W) (r : Reg) (v : Word W) : State W :=
  match r with
  | .opa => { s with opa := v }
  | .opb => { s with opb := v }
  | .modulus => { s with modulus := v }
  | .invmult => { s with invmult := v }
  | .priv j => { s with priv := s.priv.set j.val v j.isLt }
  | .pub j => { s with pub := s.pub.set j.val v j.isLt }
  | .cmd | .status | .ctrl | .res => s

/-- `RegRead(idx)`: the register at the index, 0 when the index is reserved (20_memory.md R43, R45). -/
def regRead (idx : Index) (s : State W) : Word W :=
  match regOf idx with
  | some r => s.get r
  | none => 0

/-- `RegWrite(idx, v)`: the first of the six cases that applies (20_memory.md R44). -/
def hostWrite (idx : Index) (v : Word W) (s : State W) : State W :=
  if s.busy then raise .eBusy s
  else
    match regOf idx with
    | none => raise .eAddr s
    | some r =>
      if r.readOnly then raise .eAddr s
      else if r.lockable && s.keylock then raise .eLocked s
      else
        match r with
        | .cmd => issue v s
        | .ctrl => writeCtrl v s
        | .status | .opa | .opb | .modulus | .invmult | .res | .priv _ | .pub _ => s.put r v

/-- What `rdata` shows in a cycle, recorded in the model's own field (20_memory.md R41; log 5). -/
def showRdata (v : Word W) (s : State W) : State W := { s with rdata := v }

/-- A write cycle of the port: the write, and `rdata` shows 0 (20_memory.md R41, R44). -/
def writeCycle (idx : Index) (v : Word W) (s : State W) : State W := showRdata 0 (hostWrite idx v s)

/-- A read cycle of the port: `rdata` shows the register, no register changes (20_memory.md R41, R43). -/
def readCycle (idx : Index) (s : State W) : State W := showRdata (regRead idx s) s

/-- A cycle without an access: `rdata` shows 0 (20_memory.md R41). -/
def idleCycle (s : State W) : State W := showRdata 0 s

/-- What completion does with the outcome, before BUSY and DONE (40_command_protocol.md R73). -/
def deliver (o : CmdOutcome) (s : State W) : State W :=
  match o with
  | .result res flag => { s with res := BitVec.ofNat W res, flag := flag }
  | .fault code => raise code s

/-- Completion: the outcome, then `BUSY <- 0; DONE <- 1` (40_command_protocol.md R73). -/
def finish (o : CmdOutcome) (s : State W) : State W :=
  { deliver o s with busy := false, done := true }

/-- A port access: a write cycle or a read cycle (20_memory.md R41). -/
def portCycle (a : Access W) (s : State W) : State W :=
  if a.we then writeCycle a.addr a.wdata s else readCycle a.addr s

/-- Go on from an answer; a stop stays a stop. -/
def andThen {α β : Type} (o : Host.Outcome α Fault Refusal) (f : α → Host.Outcome β Fault Refusal) :
    Host.Outcome β Fault Refusal :=
  match o with
  | .next a => f a
  | .fault r => .fault r
  | .refused r => .refused r

end Sys2Proof.Machine
end

