-- ==== Sys2Proof/Machine/NumberTheory.lean ====
section
/-! DEFINITION. The modular-inverse engine and the primality tester: ISPRIME, GCD and MODINV (41_number_theory.md R90 to
R96). Each command has its outcome function, which its completion
evaluates, and its meaning at the accept edge (`exec…`). -/

namespace Sys2Proof.Machine

variable {W : Nat}

/-- `isqrt` by base-4 digits; `fuel` digits are enough for `n < 4 ^ fuel`. -/
def isqrtDigits : Nat → Nat → Nat
  | 0, _ => 0
  | fuel + 1, n =>
    let r := 2 * isqrtDigits fuel (n / 4)
    if (r + 1) * (r + 1) ≤ n then r + 1 else r

/-- The largest `s` with `s * s ≤ n` (00_scope.md, notation; the contract is `isqrt_spec`). -/
def isqrt (n : Nat) : Nat := isqrtDigits (n.log2 + 1) n

/-- Some `d` with `2 ≤ d ≤ k + 1` divides `n`. The order in which the divisors are tried cannot be observed
(41_number_theory.md R91). -/
def dividedBySome (n : Nat) : Nat → Bool
  | 0 => false
  | k + 1 => n % (k + 2) == 0 || dividedBySome n k

/-- Some `d` with `2 ≤ d ≤ isqrt n` divides `n` (41_number_theory.md R90). -/
def hasTrialDivisor (n : Nat) : Bool := dividedBySome n (isqrt n - 1)

/-- The answer of the primality tester (41_number_theory.md R90). -/
def isPrime (n : Nat) : Bool := if n ≤ 1 then false else if hasTrialDivisor n then false else true

/-- `isprime_outcome` (41_number_theory.md R90). -/
def isprimeOutcome (n : Nat) : CmdOutcome :=
  .result (isPrime n).toNat (flagIsprime (isPrime n))

/-- The Euclidean recursion of 41_number_theory.md R92 on a fuel; `b < fuel` is enough. -/
def euclid : Nat → Nat → Nat → Nat
  | 0, a, _ => a
  | fuel + 1, a, b => if b = 0 then a else euclid fuel b (a % b)

/-- `gcd(a, b)` (41_number_theory.md R92). -/
def euclidGcd (a b : Nat) : Nat := euclid (b + 1) a b

/-- `gcd_outcome` (41_number_theory.md R93). -/
def gcdOutcome (a b : Nat) : CmdOutcome := .result (euclidGcd a b) (flagGcd (euclidGcd a b))

/-- The extended Euclidean iteration of 41_number_theory.md R96 on a fuel: the last `(r0, t0)`. -/
def extendedEuclid : Nat → Nat → Nat → Int → Int → Nat × Int
  | 0, r0, _, t0, _ => (r0, t0)
  | fuel + 1, r0, r1, t0, t1 =>
    if r1 = 0 then (r0, t0)
    else extendedEuclid fuel r1 (r0 % r1) t1 (t0 - (r0 / r1 : Nat) * t1)

/-- `modinv(a, m)` (41_number_theory.md R94), computed by the iteration of R96; the proof that it is the unique inverse,
which R96 asks for, is `modinv_spec` and `modinv_unique` (log 11). -/
def modinv (a m : Nat) : Nat := ((extendedEuclid (m + 1) m (a % m) 0 1).2 % (m : Int)).toNat

/-- `modinv_outcome`, the checks in the spec's order (41_number_theory.md R95). -/
def modinvOutcome (a m : Nat) : CmdOutcome :=
  if m = 0 then .fault .eZeroMod
  else if m = 1 then .result 0 flagModinv
  else if euclidGcd a m ≠ 1 then .fault .eNotCoprime
  else .result (modinv a m) flagModinv

/-- MODINV at its accept edge: its command word is written to CMD (40_command_protocol.md R70; 41_number_theory.md R95). -/
def execModinv (s : State W) : Host.Outcome (State W) Fault Refusal := .next (writeCycle 0 0x1 s)

/-- GCD at its accept edge (40_command_protocol.md R70; 41_number_theory.md R93). -/
def execGcd (s : State W) : Host.Outcome (State W) Fault Refusal := .next (writeCycle 0 0x2 s)

/-- ISPRIME at its accept edge (40_command_protocol.md R70; 41_number_theory.md R90). -/
def execIsprime (s : State W) : Host.Outcome (State W) Fault Refusal := .next (writeCycle 0 0x3 s)

end Sys2Proof.Machine
end

