-- ==== Sys2Proof/Machine/Port.lean ====
section
/-! DEFINITION. The command ACK (40_command_protocol.md R74) and the two port accesses WR and RD (20_memory.md R43, R44). -/

namespace Sys2Proof.Machine

variable {W : Nat}

/-- ACK: complete at its accept edge, never in flight (40_command_protocol.md R74). -/
def execAck (s : State W) : Host.Outcome (State W) Fault Refusal := .next (writeCycle 0 0x7 s)

/-- WR: a host write (20_memory.md R44). -/
def execWr (addr : Index) (wdata : Word W) (s : State W) : Host.Outcome (State W) Fault Refusal :=
  .next (writeCycle addr wdata s)

/-- RD: a host read (20_memory.md R43). -/
def execRd (addr : Index) (s : State W) : Host.Outcome (State W) Fault Refusal := .next (readCycle addr s)

end Sys2Proof.Machine
end

