-- ==== Sys2Proof/Machine/Superincreasing.lean ====
section
/-! DEFINITION. The superincreasing sequence validator: SUPCHK (42_superincreasing.md R110, R111). -/

namespace Sys2Proof.Machine

variable {W : Nat}

/-- The validator's loop: every element exceeds the exact sum `acc` of those before it (42_superincreasing.md R111). -/
def superincreasingFrom (acc : Nat) : List Nat → Bool
  | [] => true
  | x :: xs => decide (acc < x) && superincreasingFrom (acc + x) xs

/-- The answer of the validator on a bank (42_superincreasing.md R110, R111). -/
def superincreasing (b : Bank W) : Bool := superincreasingFrom 0 (elementNumbers.map (element b))

/-- `supchk_outcome` (42_superincreasing.md R111). -/
def supchkOutcome (priv : Bank W) : CmdOutcome :=
  .result (superincreasing priv).toNat (flagSupchk (superincreasing priv))

/-- SUPCHK at its accept edge (40_command_protocol.md R70; 42_superincreasing.md R111). -/
def execSupchk (s : State W) : Host.Outcome (State W) Fault Refusal := .next (writeCycle 0 0x4 s)

end Sys2Proof.Machine
end

