-- ==== Sys2Proof/Machine/Transcoder.lean ====
section
/-! DEFINITION. The knapsack summer and the greedy subset-sum decoder: KSUM and GDEC (43_transcoder.md R120 to R123). -/

namespace Sys2Proof.Machine

variable {W : Nat}

/-- Lane `j` of the knapsack summer: `P[j] * bit_j(b)` (43_transcoder.md R120). -/
def ksumLane (b : Nat) (p : Bank W) (j : Fin 8) : Nat := element p j * (bitAt b j).toNat

/-- `ksum(b, P)`, exact (43_transcoder.md R120). -/
def ksum (b : Nat) (p : Bank W) : Nat := (elementNumbers.map (ksumLane b p)).sum

/-- `ksum_outcome`, the checks in the spec's order (43_transcoder.md R121). -/
def ksumOutcome (b : Nat) (pub : Bank W) : CmdOutcome :=
  if 255 < b then .fault .eOperand
  else if 2 ^ W ≤ ksum b pub then .fault .eOverflow
  else .result (ksum b pub) flagKsum

/-- One step of the greedy loop on `(byte, reduced)` (43_transcoder.md R122). -/
def greedyStep (p : Bank W) (acc : Nat × Nat) (j : Fin 8) : Nat × Nat :=
  if element p j ≤ acc.2 then (acc.1 + positionWeight j, acc.2 - element p j) else acc

/-- `decode(c, m, q, S)`: the byte and the residual, largest index first (43_transcoder.md R122). -/
def greedyDecode (c m q : Nat) (p : Bank W) : Nat × Nat :=
  elementNumbers.reverse.foldl (greedyStep p) (0, c * m % q)

/-- `gdec_outcome` (43_transcoder.md R123). -/
def gdecOutcome (c m q : Nat) (priv : Bank W) : CmdOutcome :=
  if q = 0 then .fault .eZeroMod
  else .result (greedyDecode c m q priv).1 (flagGdec (greedyDecode c m q priv).2)

/-- KSUM at its accept edge (40_command_protocol.md R70; 43_transcoder.md R121). -/
def execKsum (s : State W) : Host.Outcome (State W) Fault Refusal := .next (writeCycle 0 0x5 s)

/-- GDEC at its accept edge (40_command_protocol.md R70; 43_transcoder.md R123). -/
def execGdec (s : State W) : Host.Outcome (State W) Fault Refusal := .next (writeCycle 0 0x6 s)

end Sys2Proof.Machine
end

