-- ==== Sys2Proof/Machine/Dispatch.lean ====
section
/-! DEFINITION. What each instruction does at its own clock edge: one arm per constructor, in the order of
spec/opcode_table.json. The completion of a command in flight is Machine/Engine.lean. -/

namespace Sys2Proof.Machine

def exec (i : Instr) (s : State) : Host.Outcome State Fault Refusal :=
  match i with
  | .modinv => Sys2Proof.Machine.execModinv s
  | .gcd => Sys2Proof.Machine.execGcd s
  | .isprime => Sys2Proof.Machine.execIsprime s
  | .supchk => Sys2Proof.Machine.execSupchk s
  | .ksum => Sys2Proof.Machine.execKsum s
  | .gdec => Sys2Proof.Machine.execGdec s
  | .ack => Sys2Proof.Machine.execAck s
  | .wr addr wdata => Sys2Proof.Machine.execWr addr wdata s
  | .rd addr => Sys2Proof.Machine.execRd addr s

end Sys2Proof.Machine
end

