-- ==== Sys2Proof/Machine/Engine.lean ====
section
/-! DEFINITION. The engine's step: the completion of the command in flight, named by CMD[3:0] (40_command_protocol.md R73,
R76). The whole outcome is computed in this step, as 10_state.md R23 allows. -/

namespace Sys2Proof.Machine

variable {W : Nat}

/-- The outcome of the command with the given opcode on the registers it reads (40_command_protocol.md R76; 30_encoding.md
R64); none for an opcode that cannot be in flight. -/
def outcomeOf (op : BitVec 4) (s : State W) : Option CmdOutcome :=
  match op.toNat with
  | 1 => some (modinvOutcome s.opa.toNat s.opb.toNat)
  | 2 => some (gcdOutcome s.opa.toNat s.opb.toNat)
  | 3 => some (isprimeOutcome s.opa.toNat)
  | 4 => some (supchkOutcome s.priv)
  | 5 => some (ksumOutcome s.opa.toNat s.pub)
  | 6 => some (gdecOutcome s.opa.toNat s.invmult.toNat s.modulus.toNat s.priv)
  | _ => none

/-- The completion of the command in flight (40_command_protocol.md R73, R76). An opcode outside 1 to 6 stops the machine:
no run reaches it (log 8). -/
def completeInFlight (s : State W) : Host.Outcome (State W) Fault Refusal :=
  match outcomeOf (opField s.cmd) s with
  | some o => .next (finish o s)
  | none => .fault .strayOpcode

end Sys2Proof.Machine
end

