-- ==== Sys2Proof/Machine/Clock.lean ====
section
/-! DEFINITION. One rising clock edge (20_memory.md R41, R51, R54; 70_reset_and_hazards.md R170): reset overrides all; else
the host's access, then the engine's completion. -/

namespace Sys2Proof.Machine

variable {W : Nat}

/-- The access the pins of an edge make when `sel = 1` (20_memory.md R41). -/
def Edge.access (e : Edge W) : Access W := { we := e.we, addr := e.addr, wdata := e.wdata }

/-- The pins of an access, and whether the engine completes at that edge (20_memory.md R41; log 3). -/
def accessEdge (a : Access W) (completes : Bool) : Edge W :=
  { rst := false, sel := true, we := a.we, addr := a.addr, wdata := a.wdata, completes := completes }

/-- A cycle without an access (20_memory.md R41). -/
def idleEdge (completes : Bool) : Edge W :=
  { rst := false, sel := false, we := false, addr := 0, wdata := 0, completes := completes }

/-- A cycle with `rst = 1` (70_reset_and_hazards.md R170). -/
def resetEdge : Edge W :=
  { rst := true, sel := false, we := false, addr := 0, wdata := 0, completes := false }

/-- The combinational output `rdata` of a cycle: the addressed register on a read, else 0 (20_memory.md R41). -/
def portRdata (e : Edge W) (s : State W) : Word W := if e.sel && !e.we then regRead e.addr s else 0

/-- A reset edge: every register takes its reset value, and nothing else due at the edge happens; `rdata` in that cycle
still shows the old state (70_reset_and_hazards.md R170). -/
def resetCycle (e : Edge W) (s : State W) : State W :=
  { allZero with rdata := portRdata e s, edges := s.edges }

/-- The host's part of an edge: its access, if any (20_memory.md R41, R54). -/
def hostCycle (e : Edge W) (s : State W) : State W := if e.sel then portCycle e.access s else idleCycle s

/-- The host's part of an edge as an instruction, at the default width: the access is decoded and runs (30_encoding.md R66). -/
def hostPart (e : Edge) (s : State) : Host.Outcome State Fault Refusal :=
  if e.sel then exec (decodeAccess e.access) s else .next (idleCycle s)

/-- The engine's part of an edge: the completion, if one is in flight (`busy` before the edge) and the engine takes it here
(40_command_protocol.md R73; 70_reset_and_hazards.md R181). -/
def enginePart (e : Edge W) (busy : Bool) (s : State W) : Host.Outcome (State W) Fault Refusal :=
  if busy && e.completes then completeInFlight s else .next s

/-- One rising clock edge, with the host's part given: reset, or the host's part and then the engine's (20_memory.md R54;
60_exceptions.md R149; 70_reset_and_hazards.md R170). -/
def clockEdge (host : Edge W → State W → Host.Outcome (State W) Fault Refusal) (e : Edge W) (s : State W) :
    Host.Outcome (State W) Fault Refusal :=
  if e.rst then .next (resetCycle e s) else andThen (host e s) (enginePart e s.busy)

/-- The next edge: the first listed; past the end of the list the host makes no access and the engine takes its completion
(weak fairness of 70_reset_and_hazards.md R181; log 4). -/
def nextEdge (s : State W) : Edge W := s.edges.headD (idleEdge true)

/-- The state with its next edge taken off the list. -/
def dropEdge (s : State W) : State W := { s with edges := s.edges.tail }

/-- The state whose next edge is `e`. -/
def pushEdge (e : Edge W) (s : State W) : State W := { s with edges := e :: s.edges }

/-- One step of the block at any width W (00_scope.md R5; 20_memory.md R51). `step` of Machine/Step.lean is this at the default
width, its accesses run as decoded instructions. -/
def stepAt (s : State W) : Host.Outcome (State W) Fault Refusal :=
  clockEdge (fun e t => .next (hostCycle e t)) (nextEdge s) (dropEdge s)

end Sys2Proof.Machine
end

