-- ==== Sys2Proof/Machine/Step.lean ====
section
/-! DEFINITION. The machine's step, one rising clock edge, and where the next instruction stands. -/

namespace Sys2Proof.Machine

/-- One step: the next clock edge (20_memory.md R51). -/
def step (s : State) : Host.Outcome State Fault Refusal := clockEdge hostPart (nextEdge s) (dropEdge s)

/-- The state whose next edge makes the port access of the given table word, with no completion at that edge (log 10). -/
def State.withFetchWord (s : State) (nbits w : Nat) : State :=
  pushEdge (accessEdge (accessOfTableWord nbits w) false) s

end Sys2Proof.Machine
end

