-- ==== Sys2Proof/Machine/HostProgram.lean ====
section
/-! DEFINITION. Host programs: transaction lists and the pseudo-instructions WAIT, LDPRIV, LDPUB, LOCK, RESET (30_encoding.md
R65 to R67), played on the machine under any schedule. The block runs no program (10_state.md R12); this is the host. -/

namespace Sys2Proof.Machine

/-- One line of a host program (30_encoding.md R66, R67). -/
inductive HostLine where
  /-- A port access or a command: one transaction record (R65). -/
  | access (i : Instr)
  /-- WAIT: read STATUS until the value read has BUSY = 0, one or more reads. -/
  | wait
  /-- LDPRIV: write PRIV[0] to PRIV[7], in that order. -/
  | ldpriv (v : Bank)
  /-- LDPUB: write PUB[0] to PUB[7], in that order. -/
  | ldpub (v : Bank)
  /-- LOCK: `WR CTRL, 0x2 or IE`, with the IE the program wants kept. -/
  | lock (ie : Bool)
  /-- RESET: `rst = 1` for one edge. -/
  | reset
  deriving DecidableEq, Repr

/-- What a line asks of the host: to drive the pins for one cycle, or to poll STATUS until it shows BUSY = 0. -/
inductive HostOp where
  | pins (e : Edge)
  | poll
  deriving DecidableEq, Repr

/-- One clock cycle of a schedule: whether the host makes no access in it, and whether the engine takes its completion at its
edge if a command is in flight (30_encoding.md R65; 70_reset_and_hazards.md R181). -/
structure Slot where
  idle : Bool
  completes : Bool
  deriving DecidableEq, Repr

/-- How far a host program has come: the state of the block and what is still to do. -/
structure Progress where
  state : State
  todo : List HostOp
  deriving DecidableEq, Repr

/-- A write of a register by its name: `WR reg, value` (30_encoding.md R66). -/
def writeReg (r : Reg) (v : Word) : Edge := accessEdge { we := true, addr := r.index, wdata := v } false

/-- A poll of STATUS: `RD STATUS` (30_encoding.md R67). -/
def pollEdge : Edge := accessEdge { we := false, addr := Reg.status.index, wdata := 0 } false

/-- The expansion of a line (30_encoding.md R66, R67). -/
def HostLine.expand : HostLine → List HostOp
  | .access i => [.pins (accessEdge i.access false)]
  | .wait => [.poll]
  | .ldpriv v => elementNumbers.map fun j => .pins (writeReg (.priv j) v[j])
  | .ldpub v => elementNumbers.map fun j => .pins (writeReg (.pub j) v[j])
  | .lock ie => [.pins (writeReg .ctrl ((BitVec.ofBool true ++ BitVec.ofBool ie).setWidth Config.W))]
  | .reset => [.pins resetEdge]

/-- The pins of the cycle in which the host does its next thing. -/
def HostOp.edge : HostOp → Edge
  | .pins e => e
  | .poll => pollEdge

/-- The host stays at this point after the cycle that led to `t`: it polled, and the word it read has BUSY = 1 (30_encoding.md
R67). -/
def HostOp.again (op : HostOp) (t : State) : Bool :=
  match op with
  | .pins _ => false
  | .poll => t.rdata.getLsbD 0

/-- One clock cycle with the given pins, the engine's choice at its edge being the schedule's. -/
def drive (e : Edge) (completes : Bool) (s : State) : Host.Outcome State Fault Refusal :=
  step (pushEdge { e with completes := completes } s)

/-- What is to do is done in order, one cycle of the schedule after the other, until either is used up (30_encoding.md R65). -/
def play : List Slot → List HostOp → State → Host.Outcome Progress Fault Refusal
  | [], ops, s => .next { state := s, todo := ops }
  | _ :: _, [], s => .next { state := s, todo := [] }
  | slot :: slots, op :: ops, s =>
    if slot.idle then andThen (drive (idleEdge false) slot.completes s) (play slots (op :: ops))
    else andThen (drive op.edge slot.completes s) fun t => play slots (if op.again t then op :: ops else ops) t

/-- A host program, its records applied in order under a schedule (30_encoding.md R65, R67). -/
def runProgram (slots : List Slot) (p : List HostLine) (s : State) : Host.Outcome Progress Fault Refusal :=
  play slots (p.flatMap HostLine.expand) s

end Sys2Proof.Machine
end

