-- ==== Sys2Proof/Safety.lean ====
section
/-! DEFINITION. What claims mean by a legal state and by a run without faults: the invariant of the block's registers, and
the faults a clock edge raises (60_exceptions.md R147, R148, R149), recorded by the hardware or not (93_implementation_defined.md
U14). -/

namespace Sys2Proof.Machine

variable {W : Nat}

/-- The relations between the registers that the rules keep: ERR and ECODE go together (60_exceptions.md R147); BUSY and
DONE are never both 1 (10_state.md R15); CMD holds 0 or an accepted command word (R22); while BUSY or DONE it is a
computing command (R22; 40_command_protocol.md R70, R76). -/
abbrev State.Inv (s : State W) : Prop :=
  (s.err = false ↔ s.ecode = none) ∧ ¬(s.busy = true ∧ s.done = true) ∧ s.cmd.toNat ≤ 7 ∧
    (s.busy = true ∨ s.done = true → 1 ≤ s.cmd.toNat ∧ s.cmd.toNat ≤ 6)

/-- The fault a host access raises at an edge without reset: the first that applies (60_exceptions.md R148). -/
def accessFault (e : Edge W) (s : State W) : Option FaultCode :=
  if !(e.sel && e.we) then none
  else if s.busy then some .eBusy
  else
    match regOf e.addr with
    | none => some .eAddr
    | some r =>
      if r.readOnly then some .eAddr
      else if r.lockable && s.keylock then some .eLocked
      else if e.addr = 0 ∧ legalCommand e.wdata = false then some .eIllegalCmd
      else none

/-- The fault the engine's completion raises at an edge without reset (60_exceptions.md R146). -/
def completionFault (e : Edge W) (s : State W) : Option FaultCode :=
  if s.busy && e.completes then
    match outcomeOf (opField s.cmd) s with
    | some (.fault c) => some c
    | some (.result _ _) => none
    | none => none
  else none

/-- The faults the next step raises, in the order they are raised (60_exceptions.md R149). -/
def raisedAt (s : State W) : List FaultCode :=
  if (nextEdge s).rst then []
  else (accessFault (nextEdge s) s).toList ++ (completionFault (nextEdge s) s).toList

/-- The next step accepts the command ACK, which clears the fault record (40_command_protocol.md R74). -/
def acksAt (s : State W) : Bool :=
  !s.busy && (nextEdge s).sel && (nextEdge s).we && (nextEdge s).addr == 0 && (nextEdge s).wdata == 7

/-- A run of `k` steps, stopping at the first fault or refusal. -/
def run : Nat → State → Host.Outcome State Fault Refusal
  | 0, s => .next s
  | k + 1, s => andThen (step s) (run k)

/-- A safe run: the next `k` steps all answer a next state and raise no fault. -/
def SafeRun : Nat → State → Prop
  | 0, _ => True
  | k + 1, s => raisedAt s = [] ∧ ∃ t, step s = .next t ∧ SafeRun k t

end Sys2Proof.Machine
end

