-- ==== Sys2Proof/Certificates/Slice0/Obligations.lean ====
section
/-! DEFINITION. The statements about the model, taken from the numbered rules of spec/. A statement on a state speaks of
every value of the model's own fields `rdata` and `edges`. -/

namespace Sys2Proof.Claims

open Sys2Proof.Machine

variable {W : Nat}

/-! ### words the statements are written in -/

/-- The state after the fault `c` is recorded: the first fault is kept (60_exceptions.md R147). -/
def recorded (c : FaultCode) (s : State W) : State W :=
  { s with err := true, ecode := if s.err then s.ecode else some c }

/-- The state after the command word `c` was accepted and completed with the result `res` and `flag`
(40_command_protocol.md R70, R73). -/
def completed (c : Word W) (res : Word W) (flag : Bool) (s : State W) : State W :=
  { s with cmd := c, busy := false, done := true, res := res, flag := flag, rdata := 0 }

/-- The state after the command word `c` was accepted and completed with the fault `code`: RES and FLAG as they were
(40_command_protocol.md R70, R73; 60_exceptions.md R146). -/
def faulted (c : Word W) (code : FaultCode) (s : State W) : State W :=
  recorded code { s with cmd := c, busy := false, done := true, rdata := 0 }

/-- The instruction answers a next state, and from that state any later edge at which the engine completes, with no access
and no reset, leads to `u`: the two events of a command (40_command_protocol.md R70, R73). -/
def Runs (i : Instr) (s u : State) : Prop :=
  ∃ t, exec i s = .next t ∧ ∀ (e : Edge) (rest : List Edge), e.rst = false → e.sel = false → e.completes = true →
    step { t with edges := e :: rest } = .next { u with edges := rest }

/-- The six computing commands (40_command_protocol.md R70, last case). -/
def Computing (i : Instr W) : Prop :=
  i = .modinv ∨ i = .gcd ∨ i = .isprime ∨ i = .supchk ∨ i = .ksum ∨ i = .gdec

/-- What a read of an index returns, from the index map (20_memory.md R42, R43, R45). -/
def portView (idx : Index) (s : State W) : Word W :=
  if idx = 0x00 then s.cmd
  else if idx = 0x01 then statusWord s
  else if idx = 0x02 then ctrlWord s
  else if idx = 0x04 then s.opa
  else if idx = 0x05 then s.opb
  else if idx = 0x06 then s.modulus
  else if idx = 0x07 then s.invmult
  else if idx = 0x08 then s.res
  else if h : 0x10 ≤ idx.toNat ∧ idx.toNat < 0x18 then s.priv[idx.toNat - 0x10]'(by omega)
  else if h : 0x18 ≤ idx.toNat then s.pub[idx.toNat - 0x18]'(by have := idx.isLt; omega)
  else 0

/-- The registers after a command word `v` is written to CMD with BUSY = 0: the three cases of 40_command_protocol.md R70. -/
def afterCommandWord (v : Word W) (s : State W) : State W :=
  if 16 ≤ v.toNat ∨ v.toNat % 16 = 0 ∨ 8 ≤ v.toNat % 16 then recorded .eIllegalCmd s
  else if v.toNat = 7 then { s with cmd := v, done := false, err := false, ecode := none }
  else { s with cmd := v, busy := true, done := false }

/-- The registers after a host write: the six ordered cases of 20_memory.md R44, by index numbers. -/
def afterWrite (idx : Index) (v : Word W) (s : State W) : State W :=
  if s.busy then recorded .eBusy s
  else if idx = 0x01 ∨ idx = 0x03 ∨ (0x08 ≤ idx.toNat ∧ idx.toNat ≤ 0x0F) then recorded .eAddr s
  else if s.keylock ∧ (idx = 0x06 ∨ idx = 0x07 ∨ 0x10 ≤ idx.toNat) then recorded .eLocked s
  else if idx = 0x00 then afterCommandWord v s
  else if idx = 0x02 then { s with ie := v.getLsbD 0, keylock := s.keylock || v.getLsbD 1 }
  else if idx = 0x04 then { s with opa := v }
  else if idx = 0x05 then { s with opb := v }
  else if idx = 0x06 then { s with modulus := v }
  else if idx = 0x07 then { s with invmult := v }
  else if h : 0x10 ≤ idx.toNat ∧ idx.toNat < 0x18 then
    { s with priv := s.priv.set (idx.toNat - 0x10) v (by omega) }
  else if h : 0x18 ≤ idx.toNat then
    { s with pub := s.pub.set (idx.toNat - 0x18) v (by have := idx.isLt; omega) }
  else s

/-- Exact sum of the PRIV elements before element `i` (42_superincreasing.md R110). -/
def privSumBefore (s : State W) (i : Fin 8) : Nat := ∑ k : Fin 8, if k < i then s.priv[k].toNat else 0

/-- Exact sum of all the PRIV elements. -/
def privSum (s : State W) : Nat := ∑ k : Fin 8, s.priv[k].toNat

/-- Exact sum of the PUB elements that the bits of OPA select, bit position `j` being bit `7-j` (43_transcoder.md R120). -/
def selectedSum (s : State W) : Nat := ∑ j : Fin 8, if s.opa.getLsbD (7 - j.val) then s.pub[j].toNat else 0

/-- No edge of the list resets the block. -/
def NoReset (l : List (Edge W)) : Prop := ∀ e ∈ l, e.rst = false

end Sys2Proof.Claims

open Sys2Proof Sys2Proof.Machine Sys2Proof.Claims

/-! ### encoding -/

/-- 30_encoding.md R62: the words of the opcode map decode to their commands, at every width (00_scope.md R5), and at the
default width as bytes (log 9); the opcodes without a command do not decode. -/
def Obligations.OpcodeMapWordsDecode : Prop :=
  (∀ W : Nat, Config.WidthAllowed W →
    decodeCommand (0x1 : Word W) = some .modinv ∧ decodeCommand (0x2 : Word W) = some .gcd ∧
    decodeCommand (0x3 : Word W) = some .isprime ∧ decodeCommand (0x4 : Word W) = some .supchk ∧
    decodeCommand (0x5 : Word W) = some .ksum ∧ decodeCommand (0x6 : Word W) = some .gdec ∧
    decodeCommand (0x7 : Word W) = some .ack ∧ decodeCommand (0x0 : Word W) = none ∧ decodeCommand (0x8 : Word W) = none ∧
    decodeCommand (0xF : Word W) = none ∧ decodeCommand (0x17 : Word W) = none) ∧
  decode [0x01, 0, 0, 0] = .ok (Instr.modinv : Instr) ∧ decode [0x06, 0, 0, 0] = .ok (Instr.gdec : Instr) ∧
  decode [0x17, 0, 0, 0] = (.error (.illegalCommand 0x17) : Except DecodeError Instr)

/-- 30_encoding.md R65: the layout of a transaction record, for every access and every width (R60), and the rule's own three
examples. -/
def Obligations.TransactionRecordLayout : Prop :=
  (∀ (W : Nat) (a : Access W), (packRecord a).getLsbD (W + 5) = a.we ∧ (packRecord a).extractLsb' W 5 = a.addr ∧
    (packRecord a).extractLsb' 0 W = a.wdata ∧ unpackRecord (packRecord a) = a) ∧
  (decodeRecord 0x240000002B : Except DecodeError Instr) = .ok (.wr 0x04 43) ∧
  (decodeRecord 0x0100000000 : Except DecodeError Instr) = .ok (.rd 0x01) ∧
  (decodeRecord 0x2000000001 : Except DecodeError Instr) = .ok .modinv

/-- At every width W, every well-formed instruction is read back from its own encoding and from its transaction record, with
every operand value. -/
def Obligations.DecodeOfEncode : Prop :=
  ∀ W : Nat, Config.WidthAllowed W → ∀ i : Instr W, i.wf = true →
    decode (encode i) = .ok i ∧ decode (encodeRecord i) = .ok i

/-- At every width W, bytes that decode are the encoding or the record of the well-formed instruction they decode to: no
other bytes decode. -/
def Obligations.DecodedBytesAreCanonical : Prop :=
  ∀ W : Nat, Config.WidthAllowed W → ∀ (bs : List Byte) (i : Instr W), decode bs = .ok i →
    i.wf = true ∧ (bs = encode i ∨ bs = encodeRecord i)

/-- 30_encoding.md R63, 60_exceptions.md R143: which words are illegal, and that such a word written to CMD with BUSY = 0
starts nothing and only records E_ILLEGAL_CMD. -/
def Obligations.IllegalCommandWord : Prop :=
  (∀ (W : Nat) (v : Word W), decodeCommand v = none ↔ (16 ≤ v.toNat ∨ v.toNat % 16 = 0 ∨ 8 ≤ v.toNat % 16)) ∧
  ∀ (s : State) (v : Word), s.busy = false → (16 ≤ v.toNat ∨ v.toNat % 16 = 0 ∨ 8 ≤ v.toNat % 16) →
    exec (.wr 0x00 v) s = .next { recorded .eIllegalCmd s with rdata := 0 }

/-- 30_encoding.md R66: a command is the write of its word to CMD. -/
def Obligations.CommandIsWriteToCmd : Prop :=
  ∀ s : State, exec .modinv s = exec (.wr 0x00 0x1) s ∧ exec .gcd s = exec (.wr 0x00 0x2) s ∧
    exec .isprime s = exec (.wr 0x00 0x3) s ∧ exec .supchk s = exec (.wr 0x00 0x4) s ∧
    exec .ksum s = exec (.wr 0x00 0x5) s ∧ exec .gdec s = exec (.wr 0x00 0x6) s ∧
    exec .ack s = exec (.wr 0x00 0x7) s

/-! ### the step -/

/-- A step runs the decoded instruction: placed by `withFetchWord` it is exactly `exec` of the instruction; at any listed
edge with an access it is `exec` of the access's instruction, then the engine's part (20_memory.md R54). -/
def Obligations.StepRunsDecodedInstruction : Prop :=
  (∀ (s : State) (nbits w : Nat) (i : Instr), decodeTableWord nbits w = some i →
    step (s.withFetchWord nbits w) = exec i s) ∧
  ∀ (s : State) (e : Edge) (rest : List Edge), e.rst = false → e.sel = true →
    step { s with edges := e :: rest } =
      andThen (exec (decodeAccess e.access) { s with edges := rest }) (enginePart e s.busy)

/-- 20_memory.md R41: a cycle without an access and without a completion changes no register and shows 0 on rdata. -/
def Obligations.IdleCycleChangesNoRegister : Prop :=
  ∀ (s : State) (e : Edge) (rest : List Edge), e.rst = false → e.sel = false →
    (s.busy = false ∨ e.completes = false) →
    step { s with edges := e :: rest } = .next { s with rdata := 0, edges := rest }

/-! ### reads -/

/-- 20_memory.md R43, R45: a read shows the addressed register, or 0 at a reserved index, changes no register, is allowed
while BUSY, and a second read shows the same. -/
def Obligations.ReadShowsRegister : Prop :=
  ∀ (s : State) (idx : Index),
    exec (.rd idx) s = .next { s with rdata := portView idx s } ∧
    exec (.rd idx) { s with rdata := portView idx s } = .next { s with rdata := portView idx s }

/-- 10_state.md R13: the layout of STATUS, the numbers of the codes (60_exceptions.md R141), and that a host write to it
changes nothing but the fault record. -/
def Obligations.StatusLayout : Prop :=
  (∀ W : Nat, Config.WidthAllowed W → ∀ s : State W,
    (portView 0x01 s).getLsbD 0 = s.busy ∧ (portView 0x01 s).getLsbD 1 = s.done ∧
    (portView 0x01 s).getLsbD 2 = s.flag ∧ (portView 0x01 s).getLsbD 3 = s.err ∧
    (portView 0x01 s).extractLsb' 4 4 = ecodeBits s.ecode ∧ ∀ k, 8 ≤ k → (portView 0x01 s).getLsbD k = false) ∧
  (ecodeBits none = 0 ∧ ecodeBits (some .eBusy) = 1 ∧ ecodeBits (some .eIllegalCmd) = 2 ∧ ecodeBits (some .eAddr) = 3 ∧
    ecodeBits (some .eLocked) = 4 ∧ ecodeBits (some .eZeroMod) = 5 ∧ ecodeBits (some .eNotCoprime) = 6 ∧
    ecodeBits (some .eOperand) = 7 ∧ ecodeBits (some .eOverflow) = 8) ∧
  (∀ (s : State) (v : Word), exec (.wr 0x01 v) s =
    .next { recorded (if s.busy then .eBusy else .eAddr) s with rdata := 0 }) ∧
  portView 0x01 State.reset = 0

/-! ### writes -/

/-- 20_memory.md R44: the six ordered cases of a host write, whole. -/
def Obligations.HostWriteCases : Prop :=
  ∀ (s : State) (idx : Index) (v : Word), exec (.wr idx v) s = .next { afterWrite idx v s with rdata := 0 }

/-- 20_memory.md R51 (c): a write to a data register is read back, and every other index reads as before. -/
def Obligations.WriteThenReadDataRegister : Prop :=
  ∀ (s : State) (idx : Index) (v : Word), s.busy = false →
    (idx = 0x04 ∨ idx = 0x05 ∨ (s.keylock = false ∧ (idx = 0x06 ∨ idx = 0x07 ∨ 0x10 ≤ idx.toNat))) →
    ∃ t, exec (.wr idx v) s = .next t ∧ exec (.rd idx) t = .next { t with rdata := v } ∧
      t.edges = s.edges ∧ ∀ other : Index, other ≠ idx → portView other t = portView other s

/-- 10_state.md R18: a write of CTRL sets IE, can only set KEYLOCK, ignores the other bits and is never locked; the read
layout; and no step but a reset clears KEYLOCK. -/
def Obligations.CtrlWriteAndLayout : Prop :=
  (∀ (s : State) (v : Word), s.busy = false →
    exec (.wr 0x02 v) s =
      .next { s with ie := v.getLsbD 0, keylock := s.keylock || v.getLsbD 1, rdata := 0 }) ∧
  (∀ W : Nat, Config.WidthAllowed W → ∀ s : State W,
    (portView 0x02 s).getLsbD 0 = s.ie ∧ (portView 0x02 s).getLsbD 1 = s.keylock ∧
    ∀ k, 2 ≤ k → (portView 0x02 s).getLsbD k = false) ∧
  (∀ s t : State, step s = .next t → (nextEdge s).rst = false → s.keylock = true → t.keylock = true) ∧
  State.reset.ie = false ∧ State.reset.keylock = false

/-- 60_exceptions.md R142: every host write made while BUSY = 1 is dropped and records E_BUSY, whatever it is; a read never
raises it. -/
def Obligations.BusyWriteDropped : Prop :=
  (∀ (s : State) (i : Instr), s.busy = true → i.access.we = true →
    exec i s = .next { recorded .eBusy s with rdata := 0 }) ∧
  ∀ (s : State) (idx : Index), ∃ t, exec (.rd idx) s = .next t ∧ t.err = s.err ∧ t.ecode = s.ecode

/-- 60_exceptions.md R144: a write with BUSY = 0 to a reserved index or a read-only register writes nothing and records
E_ADDR; reads of those indices do not fault. -/
def Obligations.ReservedOrReadOnlyWrite : Prop :=
  ∀ (s : State) (idx : Index),
    (idx = 0x03 ∨ (0x09 ≤ idx.toNat ∧ idx.toNat ≤ 0x0F) ∨ idx = 0x01 ∨ idx = 0x08) →
    (s.busy = false → ∀ v : Word, exec (.wr idx v) s = .next { recorded .eAddr s with rdata := 0 }) ∧
    exec (.rd idx) s = .next { s with rdata := portView idx s }

/-- 60_exceptions.md R145: a write with BUSY = 0 and KEYLOCK = 1 to key material writes nothing and records E_LOCKED; writes to
OPA, OPB, CTRL and CMD are not affected by KEYLOCK. -/
def Obligations.LockedKeyWrite : Prop :=
  (∀ (s : State) (idx : Index) (v : Word), s.busy = false → s.keylock = true →
    (idx = 0x06 ∨ idx = 0x07 ∨ 0x10 ≤ idx.toNat) →
    exec (.wr idx v) s = .next { recorded .eLocked s with rdata := 0 }) ∧
  ∀ (s : State) (idx : Index) (v : Word), (idx = 0x00 ∨ idx = 0x02 ∨ idx = 0x04 ∨ idx = 0x05) →
    ∃ (t : State) (k : Bool), exec (.wr idx v) { s with keylock := false } = .next { t with keylock := k } ∧
      exec (.wr idx v) { s with keylock := true } = .next { t with keylock := true }

/-! ### the command protocol -/

/-- 40_command_protocol.md R70: a word written to CMD with BUSY = 0 is rejected, is ACK, or is accepted and in flight; so each
computing command is accepted: CMD, BUSY and DONE change and no other register does. -/
def Obligations.CommandWordAccepted : Prop :=
  (∀ (s : State) (v : Word), s.busy = false →
    exec (.wr 0x00 v) s = .next { afterCommandWord v s with rdata := 0 }) ∧
  ∀ (s : State) (i : Instr) (v : Word), s.busy = false → Computing i → i.commandWord = some v →
    exec i s = .next { s with cmd := v, busy := true, done := false, rdata := 0 }

/-- 40_command_protocol.md R74: ACK clears DONE, ERR and ECODE at once and changes nothing else but CMD; while BUSY it is
dropped; with a bit above bit 3 it is illegal. -/
def Obligations.AckClearsStatus : Prop :=
  (∀ s : State, s.busy = false →
    exec .ack s = .next { s with cmd := 7, done := false, err := false, ecode := none, rdata := 0 }) ∧
  (∀ s : State, s.busy = true → exec .ack s = .next { recorded .eBusy s with rdata := 0 }) ∧
  (∀ (s : State) (v : Word), s.busy = false → v.toNat % 16 = 7 → 16 ≤ v.toNat →
    exec (.wr 0x00 v) s = .next { recorded .eIllegalCmd s with rdata := 0 }) ∧
  ∀ s : State, s.Inv → s.done = false → s.err = false → s.busy = false →
    exec .ack s = .next { s with cmd := 7, rdata := 0 }

/-- 40_command_protocol.md R73: at completion the outcome is delivered and, at the same edge, BUSY falls and DONE rises; the
result fits the register. -/
def Obligations.CompletionDeliversOutcome : Prop :=
  ∀ W : Nat, Config.WidthAllowed W → ∀ s : State W, s.Inv → s.busy = true →
    ∃ (o : CmdOutcome) (t : State W), outcomeOf (opField s.cmd) s = some o ∧
    completeInFlight s = .next t ∧ match o with
      | .result r f => r < 2 ^ W ∧
          t = { s with res := BitVec.ofNat W r, flag := f, busy := false, done := true }
      | .fault c => t = { recorded c s with busy := false, done := true }

/-! ### the commands -/

/-- 41_number_theory.md R95: MODINV. The inverse is given by its defining equation, and is the only one below the modulus. -/
def Obligations.ModinvComputesInverse : Prop :=
  ∀ s : State, s.busy = false →
    (s.opb.toNat = 0 → Runs .modinv s (faulted 1 .eZeroMod s)) ∧
    (s.opb.toNat = 1 → Runs .modinv s (completed 1 0 false s)) ∧
    (2 ≤ s.opb.toNat → Nat.gcd s.opa.toNat s.opb.toNat ≠ 1 → Runs .modinv s (faulted 1 .eNotCoprime s)) ∧
    (2 ≤ s.opb.toNat → Nat.gcd s.opa.toNat s.opb.toNat = 1 →
      ∃ x : Word, Runs .modinv s (completed 1 x false s) ∧
        ∀ y : Nat, (y < s.opb.toNat ∧ s.opa.toNat * y % s.opb.toNat = 1) ↔ y = x.toNat)

/-- 41_number_theory.md R92: the base case and the step of `gcd`, and the consequences the rule names. -/
def Obligations.EuclideanRecursion : Prop :=
  (∀ a : Nat, euclidGcd a 0 = a) ∧ (∀ a b : Nat, b ≠ 0 → euclidGcd a b = euclidGcd b (a % b)) ∧
  euclidGcd 0 0 = 0 ∧ (∀ b : Nat, euclidGcd 0 b = b) ∧ (∀ a b : Nat, euclidGcd a b = euclidGcd b a) ∧
  (∀ a b : Nat, euclidGcd a b ≤ max a b) ∧
  ∀ a b : Nat, ¬(a = 0 ∧ b = 0) → euclidGcd a b ∣ a ∧ euclidGcd a b ∣ b ∧
    ∀ d : Nat, d ∣ a → d ∣ b → d ≤ euclidGcd a b

/-- 41_number_theory.md R93: GCD. -/
def Obligations.GcdComputesGcd : Prop :=
  ∀ s : State, s.busy = false →
    ∃ g : Word, g.toNat = Nat.gcd s.opa.toNat s.opb.toNat ∧ Runs .gcd s (completed 2 g (g == 1) s)

/-- 41_number_theory.md R90: ISPRIME, by trial division up to the integer square root. -/
def Obligations.IsprimeByTrialDivision : Prop :=
  ∀ s : State, s.busy = false →
    ∃ p : Bool, (p = true ↔ 1 < s.opa.toNat ∧
        ¬∃ d, 2 ≤ d ∧ d ≤ Nat.sqrt s.opa.toNat ∧ s.opa.toNat % d = 0) ∧
      Runs .isprime s (completed 3 (if p then 1 else 0) p s)

/-- 41_number_theory.md R90, corner cases: the answer is that of the mathematical definition of a prime (a remark the rule
marks as general knowledge). -/
def Obligations.IsprimeDecidesPrimality : Prop :=
  ∀ s : State, s.busy = false →
    (Nat.Prime s.opa.toNat → Runs .isprime s (completed 3 1 true s)) ∧
    (¬Nat.Prime s.opa.toNat → Runs .isprime s (completed 3 0 false s))

/-- 42_superincreasing.md R110, R111: SUPCHK. -/
def Obligations.SupchkDecidesSuperincreasing : Prop :=
  ∀ s : State, s.busy = false →
    ((∀ i : Fin 8, privSumBefore s i < s.priv[i].toNat) → Runs .supchk s (completed 4 1 true s)) ∧
    (¬(∀ i : Fin 8, privSumBefore s i < s.priv[i].toNat) → Runs .supchk s (completed 4 0 false s))

/-- 43_transcoder.md R120, R121: KSUM. -/
def Obligations.KsumSumsSelectedElements : Prop :=
  ∀ s : State, s.busy = false →
    (255 < s.opa.toNat → Runs .ksum s (faulted 5 .eOperand s)) ∧
    (s.opa.toNat ≤ 255 → 2 ^ Config.W ≤ selectedSum s → Runs .ksum s (faulted 5 .eOverflow s)) ∧
    (s.opa.toNat ≤ 255 → selectedSum s < 2 ^ Config.W →
      ∃ r : Word, r.toNat = selectedSum s ∧ Runs .ksum s (completed 5 r false s))

/-- 43_transcoder.md R121, corner cases: no overflow when every PUB element is below `2^(W-3)`. -/
def Obligations.KsumOfSmallElementsFits : Prop :=
  ∀ s : State, s.busy = false → s.opa.toNat ≤ 255 → (∀ j : Fin 8, s.pub[j].toNat < 2 ^ (Config.W - 3)) →
    ∃ r : Word, r.toNat = selectedSum s ∧ Runs .ksum s (completed 5 r false s)

/-- 43_transcoder.md R122, R123: GDEC. `r (j+1)` is what remains before element `j` is compared, `r 0` the residual. -/
def Obligations.GdecDecodesGreedily : Prop :=
  ∀ s : State, s.busy = false →
    (s.modulus.toNat = 0 → Runs .gdec s (faulted 6 .eZeroMod s)) ∧
    (s.modulus.toNat ≠ 0 →
      ∃ (r : Nat → Nat) (byte : Word),
        r 8 = s.opa.toNat * s.invmult.toNat % s.modulus.toNat ∧
        (∀ j : Fin 8, r j.val = if s.priv[j].toNat ≤ r (j.val + 1) then r (j.val + 1) - s.priv[j].toNat
          else r (j.val + 1)) ∧
        (∀ j : Fin 8, byte.getLsbD (7 - j.val) = decide (s.priv[j].toNat ≤ r (j.val + 1))) ∧
        byte.toNat < 256 ∧ Runs .gdec s (completed 6 byte (r 0 == 0) s))

/-- 43_transcoder.md R124: the round trip of one byte through KSUM and GDEC. -/
def Obligations.RoundTripOfOneByte : Prop :=
  ∀ (s : State) (r : Nat), s.busy = false →
    (∀ i : Fin 8, privSumBefore s i < s.priv[i].toNat) →
    privSum s < s.modulus.toNat →
    r * s.invmult.toNat % s.modulus.toNat = 1 →
    (∀ j : Fin 8, s.pub[j].toNat = r * s.priv[j].toNat % s.modulus.toNat) →
    s.opa.toNat ≤ 255 → selectedSum s < 2 ^ Config.W →
    ∃ c : Word, Runs .ksum s (completed 5 c false s) ∧
      exec (.wr 0x04 c) (completed 5 c false s) = .next { completed 5 c false s with opa := c } ∧
      Runs .gdec { completed 5 c false s with opa := c }
        (completed 6 s.opa true { completed 5 c false s with opa := c })

/-- 40_command_protocol.md R72, R73: whatever the host does while a command is in flight, the command ends with the outcome of
the register values at its accept edge, and those registers keep their values. -/
def Obligations.OutcomeFixedAtAccept : Prop :=
  ∀ (s : State) (i : Instr) (v : Word) (flight : List Edge) (last : Edge) (rest : List Edge),
    s.busy = false → Computing i → i.commandWord = some v →
    NoReset flight → (∀ e ∈ flight, e.completes = false) → last.rst = false → last.completes = true →
    ∃ (o : CmdOutcome) (t : State), outcomeOf (opField v) s = some o ∧
      run (flight.length + 2)
        { s with edges := accessEdge i.access false :: (flight ++ last :: rest) } = .next t ∧
      t.busy = false ∧ t.done = true ∧ t.cmd = v ∧ t.edges = rest ∧
      t.opa = s.opa ∧ t.opb = s.opb ∧ t.modulus = s.modulus ∧ t.invmult = s.invmult ∧ t.priv = s.priv ∧
      t.pub = s.pub ∧ t.ie = s.ie ∧ t.keylock = s.keylock ∧
      match o with
      | .result r f => t.res.toNat = r ∧ t.flag = f
      | .fault _ => t.res = s.res ∧ t.flag = s.flag ∧ t.err = true

/-- 40_command_protocol.md R72: while a command is in flight no step but a reset changes what the host can write. -/
def Obligations.RegistersStableInFlight : Prop :=
  ∀ s t : State, s.busy = true → (nextEdge s).rst = false → step s = .next t →
    t.opa = s.opa ∧ t.opb = s.opb ∧ t.modulus = s.modulus ∧ t.invmult = s.invmult ∧ t.priv = s.priv ∧
    t.pub = s.pub ∧ t.ie = s.ie ∧ t.keylock = s.keylock ∧ t.cmd = s.cmd ∧
    (t.busy = true → t.res = s.res ∧ t.flag = s.flag ∧ t.done = s.done)

/-- 10_state.md R24: the engine writes only RES and fields of STATUS, and the outcome depends on nothing but the registers the
command reads (30_encoding.md R64). -/
def Obligations.EngineReadsOperandsWritesResult : Prop :=
  (∀ (W : Nat) (s t : State W), completeInFlight s = .next t →
    t.opa = s.opa ∧ t.opb = s.opb ∧ t.modulus = s.modulus ∧ t.invmult = s.invmult ∧ t.priv = s.priv ∧
    t.pub = s.pub ∧ t.ie = s.ie ∧ t.keylock = s.keylock ∧ t.cmd = s.cmd ∧ t.edges = s.edges) ∧
  ∀ (W : Nat) (s s' : State W),
    (s.opa = s'.opa → s.opb = s'.opb → outcomeOf 1 s = outcomeOf 1 s' ∧ outcomeOf 2 s = outcomeOf 2 s') ∧
    (s.opa = s'.opa → outcomeOf 3 s = outcomeOf 3 s') ∧
    (s.priv = s'.priv → outcomeOf 4 s = outcomeOf 4 s') ∧
    (s.opa = s'.opa → s.pub = s'.pub → outcomeOf 5 s = outcomeOf 5 s') ∧
    (s.opa = s'.opa → s.invmult = s'.invmult → s.modulus = s'.modulus → s.priv = s'.priv →
      outcomeOf 6 s = outcomeOf 6 s')

/-- 10_state.md R11, R16: RES and FLAG change, but for a reset, only at a completion whose outcome is a result. -/
def Obligations.ResultOnlyAtCompletion : Prop :=
  ∀ s t : State, step s = .next t → (nextEdge s).rst = false → (t.res ≠ s.res ∨ t.flag ≠ s.flag) →
    s.busy = true ∧ (nextEdge s).completes = true ∧
      ∃ (r : Nat) (f : Bool), outcomeOf (opField s.cmd) s = some (.result r f) ∧ t.res.toNat = r ∧ t.flag = f

/-! ### the whole machine -/

/-- Every step keeps the invariant. -/
def Obligations.StepKeepsInv : Prop :=
  ∀ s t : State, s.Inv → step s = .next t → t.Inv

/-- The reset state meets the invariant (10_state.md R25). -/
def Obligations.ResetMeetsInv : Prop := State.reset.Inv

/-- 60_exceptions.md R140, 70_reset_and_hazards.md R183: the block never stops: no fault of a command or of a write ends the
run. -/
def Obligations.BlockNeverStops : Prop :=
  ∀ s : State, s.Inv → ∀ k : Nat, ∃ t : State, run k s = .next t ∧ t.Inv

/-- 70_reset_and_hazards.md R178: after KEYLOCK is set the key material cannot be changed until reset, and reset clears it. -/
def Obligations.KeyMaterialLockedUntilReset : Prop :=
  (∀ (k : Nat) (s t : State), s.keylock = true → NoReset (s.edges.take k) → run k s = .next t →
    t.keylock = true ∧ t.modulus = s.modulus ∧ t.invmult = s.invmult ∧ t.priv = s.priv ∧ t.pub = s.pub) ∧
  ∀ s t : State, (nextEdge s).rst = true → step s = .next t →
    t.keylock = false ∧ t.modulus = 0 ∧ t.invmult = 0 ∧ (∀ j : Fin 8, t.priv[j] = 0 ∧ t.pub[j] = 0)

/-- 60_exceptions.md R147, R149: at an edge without reset the fault record is cleared by ACK, else kept when it holds a fault,
else it takes the first of the faults the edge raises. -/
def Obligations.FirstFaultKept : Prop :=
  ∀ s t : State, s.Inv → step s = .next t → (nextEdge s).rst = false →
    (acksAt s = true → t.err = false ∧ t.ecode = none) ∧
    (acksAt s = false → s.err = true → t.err = true ∧ t.ecode = s.ecode) ∧
    (acksAt s = false → s.err = false → t.ecode = (raisedAt s).head? ∧ (t.err = true ↔ raisedAt s ≠ []))

/-- 60_exceptions.md R149, 20_memory.md R54: a write and a completion at one edge: the write is handled first, so E_BUSY is
kept, and a faulting command shows only by RES and FLAG being unchanged. -/
def Obligations.WriteSharesEdgeWithCompletion : Prop :=
  ∀ (s : State) (e : Edge) (rest : List Edge), s.Inv → s.busy = true → s.err = false →
    e.rst = false → e.sel = true → e.we = true → e.completes = true →
    ∃ t : State, step { s with edges := e :: rest } = .next t ∧
      t.busy = false ∧ t.done = true ∧ t.err = true ∧ t.ecode = some .eBusy ∧
      (∀ c, outcomeOf (opField s.cmd) s = some (.fault c) → t.res = s.res ∧ t.flag = s.flag) ∧
      ∀ r f, outcomeOf (opField s.cmd) s = some (.result r f) → t.res.toNat = r ∧ t.flag = f

/-- 70_reset_and_hazards.md R170, R172: at an edge with rst = 1 every register takes its reset value whatever else was due, and
rdata still shows the old state. -/
def Obligations.ResetOverridesAll : Prop :=
  ∀ (s : State) (e : Edge) (rest : List Edge), e.rst = true →
    step { s with edges := e :: rest } =
      .next { State.reset with
              rdata := if e.sel = true ∧ e.we = false then portView e.addr s else 0
              edges := rest }

/-- 10_state.md R25: after reset every index reads 0 and irq is 0. -/
def Obligations.ResetRegistersReadZero : Prop :=
  (∀ idx : Index, portView idx State.reset = 0) ∧ irq State.reset = false ∧
  State.reset.cmd = 0 ∧ State.reset.busy = false ∧ State.reset.done = false ∧ State.reset.flag = false ∧
  State.reset.err = false ∧ State.reset.ecode = none ∧ State.reset.ie = false ∧ State.reset.keylock = false ∧
  State.reset.opa = 0 ∧ State.reset.opb = 0 ∧ State.reset.modulus = 0 ∧ State.reset.invmult = 0 ∧
  State.reset.res = 0 ∧ (∀ j : Fin 8, State.reset.priv[j] = 0 ∧ State.reset.pub[j] = 0)

/-- 60_exceptions.md R150: irq is DONE and IE; it becomes pending at every completion, is cleared by accepting any command, and
clearing IE masks it without clearing DONE. -/
def Obligations.InterruptLine : Prop :=
  (∀ s : State, irq s = (s.done && s.ie)) ∧
  (∀ s t : State, s.Inv → s.busy = true → (nextEdge s).rst = false → (nextEdge s).completes = true →
    step s = .next t → t.done = true ∧ irq t = s.ie) ∧
  (∀ (s : State) (i : Instr), s.busy = false → (Computing i ∨ i = .ack) →
    ∃ t, exec i s = .next t ∧ t.done = false ∧ irq t = false) ∧
  (∀ (s : State) (v : Word), s.busy = false → v.getLsbD 0 = false →
    ∃ t, exec (.wr 0x02 v) s = .next t ∧ irq t = false ∧ t.done = s.done)

/-- 70_reset_and_hazards.md R181, R183: a command in flight ends. That the completion is taken once the listed edges are used
up is the model's choice (log 4), the weak fairness of R181. -/
def Obligations.EveryFlightEnds : Prop :=
  ∀ s : State, s.Inv → s.busy = true → NoReset s.edges →
    ∃ (k : Nat) (t : State), k ≤ s.edges.length + 1 ∧ run k s = .next t ∧ t.busy = false ∧ t.done = true

/-- 60_exceptions.md R147: over a run whose steps raise no fault, the fault record stays empty. -/
def Obligations.SafeRunRecordsNothing : Prop :=
  ∀ (k : Nat) (s t : State), s.Inv → s.err = false → SafeRun k s → run k s = .next t →
    t.err = false ∧ t.ecode = none

/-! ### the pseudo-instructions -/

/-- 30_encoding.md R67: WAIT reads STATUS until a read shows BUSY = 0. Entered with BUSY = 0 it is one read; whenever it ends,
its last read shows BUSY = 0; and it ends when the schedule has a cycle at which the engine completes and a later one in which
the host polls. That such a cycle comes is the premise, the schedule's choice (log 3): the spec has only the weak fairness of
70_reset_and_hazards.md R181. -/
def Obligations.WaitEndsWithBusyClear : Prop :=
  (∀ (s : State) (c : Bool) (slots : List Slot), s.busy = false →
    runProgram (⟨false, c⟩ :: slots) [.wait] s = .next { state := { s with rdata := portView 0x01 s }, todo := [] }) ∧
  (∀ (s t : State) (slots : List Slot), s.Inv → runProgram slots [.wait] s = .next { state := t, todo := [] } →
    t.rdata.getLsbD 0 = false ∧ t.busy = false ∧ t.edges = s.edges) ∧
  ∀ (s : State) (before between : List Slot) (completing polling : Slot), s.Inv →
    completing.completes = true → polling.idle = false →
    ∃ t, runProgram (before ++ completing :: (between ++ [polling])) [.wait] s = .next { state := t, todo := [] } ∧
      t.rdata.getLsbD 0 = false ∧ t.busy = false ∧ t.edges = s.edges ∧
      (s.busy = true → t.rdata.getLsbD 1 = true ∧ t.done = true)

/-- 30_encoding.md R67: under every schedule with cycles enough for their accesses, LDPRIV and LDPUB load the banks, LOCK sets
KEYLOCK and keeps the IE given, RESET resets. -/
def Obligations.PseudoInstructionsExpand : Prop :=
  (∀ (s : State) (v : Bank) (slots : List Slot), s.busy = false → s.keylock = false →
    8 ≤ (slots.filter fun x => !x.idle).length →
    runProgram slots [.ldpriv v] s = .next { state := { s with priv := v, rdata := 0 }, todo := [] } ∧
    runProgram slots [.ldpub v] s = .next { state := { s with pub := v, rdata := 0 }, todo := [] }) ∧
  (∀ (s : State) (ie : Bool) (slots : List Slot), s.busy = false → 1 ≤ (slots.filter fun x => !x.idle).length →
    runProgram slots [.lock ie] s = .next { state := { s with ie := ie, keylock := true, rdata := 0 }, todo := [] }) ∧
  ∀ (s : State) (slots : List Slot), s.Inv → 1 ≤ (slots.filter fun x => !x.idle).length →
    runProgram slots [.reset] s = .next { state := { State.reset with edges := s.edges }, todo := [] }

/-- 70_reset_and_hazards.md R173: the commands on the reset state. -/
def Obligations.CommandsOnResetState : Prop :=
  Runs .isprime State.reset (completed 3 0 false State.reset) ∧
  Runs .gcd State.reset (completed 2 0 false State.reset) ∧
  Runs .modinv State.reset (faulted 1 .eZeroMod State.reset) ∧
  Runs .supchk State.reset (completed 4 0 false State.reset) ∧
  Runs .ksum State.reset (completed 5 0 false State.reset) ∧
  Runs .gdec State.reset (faulted 6 .eZeroMod State.reset)

/-! ### every width -/

/-- 00_scope.md R5: the machine is the block at the default width. -/
def Obligations.StepIsTheBlockAtDefaultWidth : Prop := ∀ s : State, step s = stepAt s

/-- 00_scope.md R5, 20_memory.md R41, R43, R44: a port access with BUSY = 0 at every width: a write does the six cases, a read
shows the register. -/
def Obligations.PortAccessAtEveryWidth : Prop :=
  ∀ W : Nat, Config.WidthAllowed W → ∀ (s : State W) (e : Edge W) (rest : List (Edge W)),
    e.rst = false → e.sel = true → (s.busy = false ∨ e.completes = false) →
    stepAt { s with edges := e :: rest } =
      .next { (if e.we then afterWrite e.addr e.wdata s else s) with
              rdata := if e.we then 0 else portView e.addr s
              edges := rest }

/-- 00_scope.md R5, 40_command_protocol.md R70, R73: a computing command at every width: accepted at its write, completed with
its outcome at the completing edge, a result fitting the W-bit register. -/
def Obligations.CommandAtEveryWidth : Prop :=
  ∀ W : Nat, Config.WidthAllowed W → ∀ (s : State W) (i : Instr W) (v : Word W), s.busy = false → Computing i →
    i.commandWord = some v → ∀ (e : Edge W) (rest : List (Edge W)), e.rst = false → e.sel = false → e.completes = true →
    ∃ (o : CmdOutcome) (t : State W), outcomeOf (opField v) s = some o ∧
      stepAt { s with edges := accessEdge i.access false :: e :: rest } = .next t ∧
      t = { s with cmd := v, busy := true, done := false, rdata := 0, edges := e :: rest } ∧
      match o with
      | .result r f => r < 2 ^ W ∧
          stepAt t = .next { completed v (BitVec.ofNat W r) f s with edges := rest }
      | .fault c => stepAt t = .next { faulted v c s with edges := rest }

/-- 00_scope.md R5, R6: the outcome of every command at every width, in exact arithmetic (41_number_theory.md R93, R95;
42_superincreasing.md R111; 43_transcoder.md R121, R123). For ISPRIME it is stated by the mathematical definition of a prime,
which 41_number_theory.md R90 gives as a remark marked general knowledge. -/
def Obligations.OutcomesAtEveryWidth : Prop :=
  ∀ W : Nat, Config.WidthAllowed W → ∀ s : State W,
    ((s.opb.toNat = 0 → outcomeOf 1 s = some (.fault .eZeroMod)) ∧
     (s.opb.toNat = 1 → outcomeOf 1 s = some (.result 0 false)) ∧
     (2 ≤ s.opb.toNat → Nat.gcd s.opa.toNat s.opb.toNat ≠ 1 → outcomeOf 1 s = some (.fault .eNotCoprime)) ∧
     (2 ≤ s.opb.toNat → Nat.gcd s.opa.toNat s.opb.toNat = 1 →
       ∃ x, x < s.opb.toNat ∧ s.opa.toNat * x % s.opb.toNat = 1 ∧ outcomeOf 1 s = some (.result x false))) ∧
    outcomeOf 2 s = some (.result (Nat.gcd s.opa.toNat s.opb.toNat) (Nat.gcd s.opa.toNat s.opb.toNat == 1)) ∧
    ((Nat.Prime s.opa.toNat → outcomeOf 3 s = some (.result 1 true)) ∧
     (¬Nat.Prime s.opa.toNat → outcomeOf 3 s = some (.result 0 false))) ∧
    (((∀ i : Fin 8, privSumBefore s i < s.priv[i].toNat) → outcomeOf 4 s = some (.result 1 true)) ∧
     (¬(∀ i : Fin 8, privSumBefore s i < s.priv[i].toNat) → outcomeOf 4 s = some (.result 0 false))) ∧
    outcomeOf 5 s = some (if 255 < s.opa.toNat then .fault .eOperand
      else if 2 ^ W ≤ selectedSum s then .fault .eOverflow else .result (selectedSum s) false) ∧
    ((s.modulus.toNat = 0 → outcomeOf 6 s = some (.fault .eZeroMod)) ∧
     (s.modulus.toNat ≠ 0 → ∃ (r : Nat → Nat) (byte : Nat),
       r 8 = s.opa.toNat * s.invmult.toNat % s.modulus.toNat ∧
       (∀ j : Fin 8, r j.val = if s.priv[j].toNat ≤ r (j.val + 1) then r (j.val + 1) - s.priv[j].toNat
         else r (j.val + 1)) ∧
       (∀ j : Fin 8, byte.testBit (7 - j.val) = decide (s.priv[j].toNat ≤ r (j.val + 1))) ∧
       byte < 256 ∧ outcomeOf 6 s = some (.result byte (r 0 == 0))))

/-- 00_scope.md R5: every step of the block keeps the invariant, at every width. -/
def Obligations.StepKeepsInvAtEveryWidth : Prop :=
  ∀ W : Nat, Config.WidthAllowed W → ∀ s t : State W, s.Inv → stepAt s = .next t → t.Inv

/-! ### host programs and schedules -/

/-- 30_encoding.md R65: a host program played under a schedule is a run over listed edges, the schedule's engine choices among
them; and a list of records with the engine's choice at each is that very run. -/
def Obligations.HostProgramIsRunOfEdges : Prop :=
  (∀ (slots : List Slot) (p : List HostLine) (s : State) (q : Progress), runProgram slots p s = .next q →
    ∃ es : List Edge, es.length ≤ slots.length ∧
      es.map (fun e => e.completes) = (slots.take es.length).map (fun x => x.completes) ∧
      run es.length { s with edges := es ++ s.edges } = .next q.state) ∧
  ∀ (records : List (Instr × Bool)) (s t : State),
    run records.length { s with edges := (records.map fun r => accessEdge r.1.access r.2) ++ s.edges } = .next t →
    runProgram (records.map fun r => { idle := false, completes := r.2 }) (records.map fun r => .access r.1) s =
      .next { state := t, todo := [] }

/-- 30_encoding.md R65: between two records the engine may take its completion step or not: a command followed by a read of
STATUS shows BUSY = 1 when it does not, and DONE = 1, BUSY = 0 when it does. Which it does is the schedule's (log 3). -/
def Obligations.EngineMayCompleteBetweenRecords : Prop :=
  ∀ (s : State) (i : Instr) (c : Bool), s.busy = false → Computing i →
    (∃ t, runProgram [⟨false, false⟩, ⟨true, false⟩, ⟨false, c⟩] [.access i, .access (.rd 0x01)] s =
        .next { state := t, todo := [] } ∧ t.rdata.getLsbD 0 = true ∧ t.rdata.getLsbD 1 = false) ∧
    ∃ t, runProgram [⟨false, false⟩, ⟨true, true⟩, ⟨false, c⟩] [.access i, .access (.rd 0x01)] s =
        .next { state := t, todo := [] } ∧ t.rdata.getLsbD 0 = false ∧ t.rdata.getLsbD 1 = true
end

