-- ==== Sys2Proof/Laws/State.lean ====
section
/-! SUPPORT. One lemma per field per named update of the state, so that no later proof unfolds a record update. -/

namespace Sys2Proof.Machine

variable {W : Nat}

/-- The range of a word as a number, so that simp computes with it (00_scope.md R6). -/
@[simp] theorem two_pow_w : 2 ^ Config.W = 4294967296 := rfl

/-! ### showRdata -/

@[simp] theorem showRdata_cmd (v : Word W) (s : State W) : (showRdata v s).cmd = s.cmd := rfl
@[simp] theorem showRdata_busy (v : Word W) (s : State W) : (showRdata v s).busy = s.busy := rfl
@[simp] theorem showRdata_done (v : Word W) (s : State W) : (showRdata v s).done = s.done := rfl
@[simp] theorem showRdata_flag (v : Word W) (s : State W) : (showRdata v s).flag = s.flag := rfl
@[simp] theorem showRdata_err (v : Word W) (s : State W) : (showRdata v s).err = s.err := rfl
@[simp] theorem showRdata_ecode (v : Word W) (s : State W) : (showRdata v s).ecode = s.ecode := rfl
@[simp] theorem showRdata_ie (v : Word W) (s : State W) : (showRdata v s).ie = s.ie := rfl
@[simp] theorem showRdata_keylock (v : Word W) (s : State W) : (showRdata v s).keylock = s.keylock := rfl
@[simp] theorem showRdata_opa (v : Word W) (s : State W) : (showRdata v s).opa = s.opa := rfl
@[simp] theorem showRdata_opb (v : Word W) (s : State W) : (showRdata v s).opb = s.opb := rfl
@[simp] theorem showRdata_modulus (v : Word W) (s : State W) : (showRdata v s).modulus = s.modulus := rfl
@[simp] theorem showRdata_invmult (v : Word W) (s : State W) : (showRdata v s).invmult = s.invmult := rfl
@[simp] theorem showRdata_res (v : Word W) (s : State W) : (showRdata v s).res = s.res := rfl
@[simp] theorem showRdata_priv (v : Word W) (s : State W) : (showRdata v s).priv = s.priv := rfl
@[simp] theorem showRdata_pub (v : Word W) (s : State W) : (showRdata v s).pub = s.pub := rfl
@[simp] theorem showRdata_rdata (v : Word W) (s : State W) : (showRdata v s).rdata = v := rfl
@[simp] theorem showRdata_edges (v : Word W) (s : State W) : (showRdata v s).edges = s.edges := rfl

/-! ### idleCycle -/

@[simp] theorem idleCycle_cmd (s : State W) : (idleCycle s).cmd = s.cmd := rfl
@[simp] theorem idleCycle_busy (s : State W) : (idleCycle s).busy = s.busy := rfl
@[simp] theorem idleCycle_done (s : State W) : (idleCycle s).done = s.done := rfl
@[simp] theorem idleCycle_flag (s : State W) : (idleCycle s).flag = s.flag := rfl
@[simp] theorem idleCycle_err (s : State W) : (idleCycle s).err = s.err := rfl
@[simp] theorem idleCycle_ecode (s : State W) : (idleCycle s).ecode = s.ecode := rfl
@[simp] theorem idleCycle_ie (s : State W) : (idleCycle s).ie = s.ie := rfl
@[simp] theorem idleCycle_keylock (s : State W) : (idleCycle s).keylock = s.keylock := rfl
@[simp] theorem idleCycle_opa (s : State W) : (idleCycle s).opa = s.opa := rfl
@[simp] theorem idleCycle_opb (s : State W) : (idleCycle s).opb = s.opb := rfl
@[simp] theorem idleCycle_modulus (s : State W) : (idleCycle s).modulus = s.modulus := rfl
@[simp] theorem idleCycle_invmult (s : State W) : (idleCycle s).invmult = s.invmult := rfl
@[simp] theorem idleCycle_res (s : State W) : (idleCycle s).res = s.res := rfl
@[simp] theorem idleCycle_priv (s : State W) : (idleCycle s).priv = s.priv := rfl
@[simp] theorem idleCycle_pub (s : State W) : (idleCycle s).pub = s.pub := rfl
@[simp] theorem idleCycle_rdata (s : State W) : (idleCycle s).rdata = 0 := rfl
@[simp] theorem idleCycle_edges (s : State W) : (idleCycle s).edges = s.edges := rfl

/-! ### acknowledge -/

@[simp] theorem acknowledge_cmd (v : Word W) (s : State W) : (acknowledge v s).cmd = v := rfl
@[simp] theorem acknowledge_busy (v : Word W) (s : State W) : (acknowledge v s).busy = s.busy := rfl
@[simp] theorem acknowledge_done (v : Word W) (s : State W) : (acknowledge v s).done = false := rfl
@[simp] theorem acknowledge_flag (v : Word W) (s : State W) : (acknowledge v s).flag = s.flag := rfl
@[simp] theorem acknowledge_err (v : Word W) (s : State W) : (acknowledge v s).err = false := rfl
@[simp] theorem acknowledge_ecode (v : Word W) (s : State W) : (acknowledge v s).ecode = none := rfl
@[simp] theorem acknowledge_ie (v : Word W) (s : State W) : (acknowledge v s).ie = s.ie := rfl
@[simp] theorem acknowledge_keylock (v : Word W) (s : State W) : (acknowledge v s).keylock = s.keylock := rfl
@[simp] theorem acknowledge_opa (v : Word W) (s : State W) : (acknowledge v s).opa = s.opa := rfl
@[simp] theorem acknowledge_opb (v : Word W) (s : State W) : (acknowledge v s).opb = s.opb := rfl
@[simp] theorem acknowledge_modulus (v : Word W) (s : State W) : (acknowledge v s).modulus = s.modulus := rfl
@[simp] theorem acknowledge_invmult (v : Word W) (s : State W) : (acknowledge v s).invmult = s.invmult := rfl
@[simp] theorem acknowledge_res (v : Word W) (s : State W) : (acknowledge v s).res = s.res := rfl
@[simp] theorem acknowledge_priv (v : Word W) (s : State W) : (acknowledge v s).priv = s.priv := rfl
@[simp] theorem acknowledge_pub (v : Word W) (s : State W) : (acknowledge v s).pub = s.pub := rfl
@[simp] theorem acknowledge_rdata (v : Word W) (s : State W) : (acknowledge v s).rdata = s.rdata := rfl
@[simp] theorem acknowledge_edges (v : Word W) (s : State W) : (acknowledge v s).edges = s.edges := rfl

/-! ### accept -/

@[simp] theorem accept_cmd (v : Word W) (s : State W) : (accept v s).cmd = v := rfl
@[simp] theorem accept_busy (v : Word W) (s : State W) : (accept v s).busy = true := rfl
@[simp] theorem accept_done (v : Word W) (s : State W) : (accept v s).done = false := rfl
@[simp] theorem accept_flag (v : Word W) (s : State W) : (accept v s).flag = s.flag := rfl
@[simp] theorem accept_err (v : Word W) (s : State W) : (accept v s).err = s.err := rfl
@[simp] theorem accept_ecode (v : Word W) (s : State W) : (accept v s).ecode = s.ecode := rfl
@[simp] theorem accept_ie (v : Word W) (s : State W) : (accept v s).ie = s.ie := rfl
@[simp] theorem accept_keylock (v : Word W) (s : State W) : (accept v s).keylock = s.keylock := rfl
@[simp] theorem accept_opa (v : Word W) (s : State W) : (accept v s).opa = s.opa := rfl
@[simp] theorem accept_opb (v : Word W) (s : State W) : (accept v s).opb = s.opb := rfl
@[simp] theorem accept_modulus (v : Word W) (s : State W) : (accept v s).modulus = s.modulus := rfl
@[simp] theorem accept_invmult (v : Word W) (s : State W) : (accept v s).invmult = s.invmult := rfl
@[simp] theorem accept_res (v : Word W) (s : State W) : (accept v s).res = s.res := rfl
@[simp] theorem accept_priv (v : Word W) (s : State W) : (accept v s).priv = s.priv := rfl
@[simp] theorem accept_pub (v : Word W) (s : State W) : (accept v s).pub = s.pub := rfl
@[simp] theorem accept_rdata (v : Word W) (s : State W) : (accept v s).rdata = s.rdata := rfl
@[simp] theorem accept_edges (v : Word W) (s : State W) : (accept v s).edges = s.edges := rfl

/-! ### writeCtrl -/

@[simp] theorem writeCtrl_cmd (v : Word W) (s : State W) : (writeCtrl v s).cmd = s.cmd := rfl
@[simp] theorem writeCtrl_busy (v : Word W) (s : State W) : (writeCtrl v s).busy = s.busy := rfl
@[simp] theorem writeCtrl_done (v : Word W) (s : State W) : (writeCtrl v s).done = s.done := rfl
@[simp] theorem writeCtrl_flag (v : Word W) (s : State W) : (writeCtrl v s).flag = s.flag := rfl
@[simp] theorem writeCtrl_err (v : Word W) (s : State W) : (writeCtrl v s).err = s.err := rfl
@[simp] theorem writeCtrl_ecode (v : Word W) (s : State W) : (writeCtrl v s).ecode = s.ecode := rfl
@[simp] theorem writeCtrl_ie (v : Word W) (s : State W) : (writeCtrl v s).ie = v.getLsbD 0 := rfl
@[simp] theorem writeCtrl_keylock (v : Word W) (s : State W) : (writeCtrl v s).keylock = (s.keylock || v.getLsbD 1) := rfl
@[simp] theorem writeCtrl_opa (v : Word W) (s : State W) : (writeCtrl v s).opa = s.opa := rfl
@[simp] theorem writeCtrl_opb (v : Word W) (s : State W) : (writeCtrl v s).opb = s.opb := rfl
@[simp] theorem writeCtrl_modulus (v : Word W) (s : State W) : (writeCtrl v s).modulus = s.modulus := rfl
@[simp] theorem writeCtrl_invmult (v : Word W) (s : State W) : (writeCtrl v s).invmult = s.invmult := rfl
@[simp] theorem writeCtrl_res (v : Word W) (s : State W) : (writeCtrl v s).res = s.res := rfl
@[simp] theorem writeCtrl_priv (v : Word W) (s : State W) : (writeCtrl v s).priv = s.priv := rfl
@[simp] theorem writeCtrl_pub (v : Word W) (s : State W) : (writeCtrl v s).pub = s.pub := rfl
@[simp] theorem writeCtrl_rdata (v : Word W) (s : State W) : (writeCtrl v s).rdata = s.rdata := rfl
@[simp] theorem writeCtrl_edges (v : Word W) (s : State W) : (writeCtrl v s).edges = s.edges := rfl

/-! ### dropEdge -/

@[simp] theorem dropEdge_cmd (s : State W) : (dropEdge s).cmd = s.cmd := rfl
@[simp] theorem dropEdge_busy (s : State W) : (dropEdge s).busy = s.busy := rfl
@[simp] theorem dropEdge_done (s : State W) : (dropEdge s).done = s.done := rfl
@[simp] theorem dropEdge_flag (s : State W) : (dropEdge s).flag = s.flag := rfl
@[simp] theorem dropEdge_err (s : State W) : (dropEdge s).err = s.err := rfl
@[simp] theorem dropEdge_ecode (s : State W) : (dropEdge s).ecode = s.ecode := rfl
@[simp] theorem dropEdge_ie (s : State W) : (dropEdge s).ie = s.ie := rfl
@[simp] theorem dropEdge_keylock (s : State W) : (dropEdge s).keylock = s.keylock := rfl
@[simp] theorem dropEdge_opa (s : State W) : (dropEdge s).opa = s.opa := rfl
@[simp] theorem dropEdge_opb (s : State W) : (dropEdge s).opb = s.opb := rfl
@[simp] theorem dropEdge_modulus (s : State W) : (dropEdge s).modulus = s.modulus := rfl
@[simp] theorem dropEdge_invmult (s : State W) : (dropEdge s).invmult = s.invmult := rfl
@[simp] theorem dropEdge_res (s : State W) : (dropEdge s).res = s.res := rfl
@[simp] theorem dropEdge_priv (s : State W) : (dropEdge s).priv = s.priv := rfl
@[simp] theorem dropEdge_pub (s : State W) : (dropEdge s).pub = s.pub := rfl
@[simp] theorem dropEdge_rdata (s : State W) : (dropEdge s).rdata = s.rdata := rfl
@[simp] theorem dropEdge_edges (s : State W) : (dropEdge s).edges = s.edges.tail := rfl

/-! ### pushEdge -/

@[simp] theorem pushEdge_cmd (e : Edge W) (s : State W) : (pushEdge e s).cmd = s.cmd := rfl
@[simp] theorem pushEdge_busy (e : Edge W) (s : State W) : (pushEdge e s).busy = s.busy := rfl
@[simp] theorem pushEdge_done (e : Edge W) (s : State W) : (pushEdge e s).done = s.done := rfl
@[simp] theorem pushEdge_flag (e : Edge W) (s : State W) : (pushEdge e s).flag = s.flag := rfl
@[simp] theorem pushEdge_err (e : Edge W) (s : State W) : (pushEdge e s).err = s.err := rfl
@[simp] theorem pushEdge_ecode (e : Edge W) (s : State W) : (pushEdge e s).ecode = s.ecode := rfl
@[simp] theorem pushEdge_ie (e : Edge W) (s : State W) : (pushEdge e s).ie = s.ie := rfl
@[simp] theorem pushEdge_keylock (e : Edge W) (s : State W) : (pushEdge e s).keylock = s.keylock := rfl
@[simp] theorem pushEdge_opa (e : Edge W) (s : State W) : (pushEdge e s).opa = s.opa := rfl
@[simp] theorem pushEdge_opb (e : Edge W) (s : State W) : (pushEdge e s).opb = s.opb := rfl
@[simp] theorem pushEdge_modulus (e : Edge W) (s : State W) : (pushEdge e s).modulus = s.modulus := rfl
@[simp] theorem pushEdge_invmult (e : Edge W) (s : State W) : (pushEdge e s).invmult = s.invmult := rfl
@[simp] theorem pushEdge_res (e : Edge W) (s : State W) : (pushEdge e s).res = s.res := rfl
@[simp] theorem pushEdge_priv (e : Edge W) (s : State W) : (pushEdge e s).priv = s.priv := rfl
@[simp] theorem pushEdge_pub (e : Edge W) (s : State W) : (pushEdge e s).pub = s.pub := rfl
@[simp] theorem pushEdge_rdata (e : Edge W) (s : State W) : (pushEdge e s).rdata = s.rdata := rfl
@[simp] theorem pushEdge_edges (e : Edge W) (s : State W) : (pushEdge e s).edges = e :: s.edges := rfl

/-! ### raise: only the fault record changes, and it is never cleared -/

@[simp] theorem raise_cmd (c : FaultCode) (s : State W) : (raise c s).cmd = s.cmd := by unfold raise; split <;> rfl
@[simp] theorem raise_busy (c : FaultCode) (s : State W) : (raise c s).busy = s.busy := by unfold raise; split <;> rfl
@[simp] theorem raise_done (c : FaultCode) (s : State W) : (raise c s).done = s.done := by unfold raise; split <;> rfl
@[simp] theorem raise_flag (c : FaultCode) (s : State W) : (raise c s).flag = s.flag := by unfold raise; split <;> rfl
@[simp] theorem raise_err (c : FaultCode) (s : State W) : (raise c s).err = true := by unfold raise; split <;> simp_all
@[simp] theorem raise_ecode (c : FaultCode) (s : State W) : (raise c s).ecode = if s.err then s.ecode else some c := by unfold raise; split <;> simp_all
@[simp] theorem raise_ie (c : FaultCode) (s : State W) : (raise c s).ie = s.ie := by unfold raise; split <;> rfl
@[simp] theorem raise_keylock (c : FaultCode) (s : State W) : (raise c s).keylock = s.keylock := by unfold raise; split <;> rfl
@[simp] theorem raise_opa (c : FaultCode) (s : State W) : (raise c s).opa = s.opa := by unfold raise; split <;> rfl
@[simp] theorem raise_opb (c : FaultCode) (s : State W) : (raise c s).opb = s.opb := by unfold raise; split <;> rfl
@[simp] theorem raise_modulus (c : FaultCode) (s : State W) : (raise c s).modulus = s.modulus := by unfold raise; split <;> rfl
@[simp] theorem raise_invmult (c : FaultCode) (s : State W) : (raise c s).invmult = s.invmult := by unfold raise; split <;> rfl
@[simp] theorem raise_res (c : FaultCode) (s : State W) : (raise c s).res = s.res := by unfold raise; split <;> rfl
@[simp] theorem raise_priv (c : FaultCode) (s : State W) : (raise c s).priv = s.priv := by unfold raise; split <;> rfl
@[simp] theorem raise_pub (c : FaultCode) (s : State W) : (raise c s).pub = s.pub := by unfold raise; split <;> rfl
@[simp] theorem raise_rdata (c : FaultCode) (s : State W) : (raise c s).rdata = s.rdata := by unfold raise; split <;> rfl
@[simp] theorem raise_edges (c : FaultCode) (s : State W) : (raise c s).edges = s.edges := by unfold raise; split <;> rfl

/-! ### finish: RES, FLAG and STATUS fields only -/

@[simp] theorem finish_cmd (o : CmdOutcome) (s : State W) : (finish o s).cmd = s.cmd := by cases o <;> simp [finish, deliver]
@[simp] theorem finish_busy (o : CmdOutcome) (s : State W) : (finish o s).busy = false := rfl
@[simp] theorem finish_done (o : CmdOutcome) (s : State W) : (finish o s).done = true := rfl
@[simp] theorem finish_flag (o : CmdOutcome) (s : State W) : (finish o s).flag = (deliver o s).flag := rfl
@[simp] theorem finish_err (o : CmdOutcome) (s : State W) : (finish o s).err = (deliver o s).err := rfl
@[simp] theorem finish_ecode (o : CmdOutcome) (s : State W) : (finish o s).ecode = (deliver o s).ecode := rfl
@[simp] theorem finish_ie (o : CmdOutcome) (s : State W) : (finish o s).ie = s.ie := by cases o <;> simp [finish, deliver]
@[simp] theorem finish_keylock (o : CmdOutcome) (s : State W) : (finish o s).keylock = s.keylock := by cases o <;> simp [finish, deliver]
@[simp] theorem finish_opa (o : CmdOutcome) (s : State W) : (finish o s).opa = s.opa := by cases o <;> simp [finish, deliver]
@[simp] theorem finish_opb (o : CmdOutcome) (s : State W) : (finish o s).opb = s.opb := by cases o <;> simp [finish, deliver]
@[simp] theorem finish_modulus (o : CmdOutcome) (s : State W) : (finish o s).modulus = s.modulus := by cases o <;> simp [finish, deliver]
@[simp] theorem finish_invmult (o : CmdOutcome) (s : State W) : (finish o s).invmult = s.invmult := by cases o <;> simp [finish, deliver]
@[simp] theorem finish_res (o : CmdOutcome) (s : State W) : (finish o s).res = (deliver o s).res := rfl
@[simp] theorem finish_priv (o : CmdOutcome) (s : State W) : (finish o s).priv = s.priv := by cases o <;> simp [finish, deliver]
@[simp] theorem finish_pub (o : CmdOutcome) (s : State W) : (finish o s).pub = s.pub := by cases o <;> simp [finish, deliver]
@[simp] theorem finish_rdata (o : CmdOutcome) (s : State W) : (finish o s).rdata = s.rdata := by cases o <;> simp [finish, deliver]
@[simp] theorem finish_edges (o : CmdOutcome) (s : State W) : (finish o s).edges = s.edges := by cases o <;> simp [finish, deliver]

end Sys2Proof.Machine
end

