-- ==== Sys2Proof/Laws/Ops.lean ====
section
/-! SUPPORT. What the shared operations can do: the index map, the host's write, the port cycles, each said once. -/

namespace Sys2Proof.Machine

variable {W : Nat}

/-! ### the index map -/

@[simp] theorem regOf_index (r : Reg) : regOf r.index = some r := by
  have hp : ∀ j : Fin 8, regOf (Reg.priv j).index = some (.priv j) := by decide
  have hq : ∀ j : Fin 8, regOf (Reg.pub j).index = some (.pub j) := by decide
  cases r <;> first | rfl | exact hp _ | exact hq _

theorem index_of_regOf (idx : Index) : ∀ r, regOf idx = some r → r.index = idx := by
  revert idx; decide +revert

/-- A read returns the register's value (20_memory.md R43). -/
@[simp] theorem regRead_index (r : Reg) (s : State W) : regRead r.index s = s.get r := by simp [regRead]

/-! ### the command word -/

theorem opField_toNat (v : Word W) : (opField v).toNat = v.toNat % 16 := by
  simp [opField]

theorem zeroField_eq_zero_iff (v : Word W) : zeroField v = 0 ↔ v.toNat < 16 := by
  have h : v.toNat < 2 ^ W := v.isLt
  have p : (2 : Nat) ^ W ≤ 16 * 2 ^ (W - 4) := by
    rw [show (16 : Nat) = 2 ^ 4 by rfl, ← pow_add]
    exact Nat.pow_le_pow_right (by decide) (by omega)
  rw [← BitVec.toNat_inj]
  simp only [zeroField, BitVec.extractLsb'_toNat, Nat.shiftRight_eq_div_pow, BitVec.ofNat_eq_ofNat, BitVec.toNat_ofNat,
    Nat.zero_mod]
  rw [Nat.mod_eq_of_lt (by omega)]
  omega

theorem legalCommand_iff (v : Word W) : legalCommand v = true ↔ 1 ≤ v.toNat ∧ v.toNat ≤ 7 := by
  have h := opField_toNat v
  have z := zeroField_eq_zero_iff v
  simp only [legalCommand, Bool.and_eq_true, beq_iff_eq, bne_iff_ne, ne_eq, decide_eq_true_eq, z,
    BitVec.lt_def, ← BitVec.toNat_inj, h]
  simp
  omega

/-- The three cases of a command word, by its number (40_command_protocol.md R70). -/
theorem issue_eq (v : Word W) (s : State W) : issue v s =
    if 1 ≤ v.toNat ∧ v.toNat ≤ 6 then accept v s
    else if v.toNat = 7 then acknowledge v s
    else raise .eIllegalCmd s := by
  have h := opField_toNat v
  have z := zeroField_eq_zero_iff v
  have e0 : opField v = 0 ↔ v.toNat % 16 = 0 := by rw [← BitVec.toNat_inj, h]; simp
  have e7 : opField v = 7 ↔ v.toNat % 16 = 7 := by rw [← BitVec.toNat_inj, h]; simp
  have e8 : 8 ≤ opField v ↔ 8 ≤ v.toNat % 16 := by rw [BitVec.le_def, h]; simp
  unfold issue
  simp only [ne_eq, z, e0, e7, e8]
  split_ifs <;> first | rfl | omega

/-! ### the host's write -/

/-- Everything a host write can do: record one fault, take a command word, write CTRL, or store a word in a data register
that is not locked (20_memory.md R44). -/
theorem hostWrite_cases (idx : Index) (v : Word W) (s : State W) :
    (s.busy = true ∧ hostWrite idx v s = raise .eBusy s) ∨
    (s.busy = false ∧ hostWrite idx v s = raise .eAddr s) ∨
    (s.busy = false ∧ s.keylock = true ∧ hostWrite idx v s = raise .eLocked s) ∨
    (s.busy = false ∧ idx = 0 ∧ hostWrite idx v s = issue v s) ∨
    (s.busy = false ∧ idx = 2 ∧ hostWrite idx v s = writeCtrl v s) ∨
    (s.busy = false ∧ ∃ r : Reg, idx = r.index ∧ (r.lockable = true → s.keylock = false) ∧
      hostWrite idx v s = s.put r v) := by
  unfold hostWrite
  cases hb : s.busy
  · simp only [Bool.false_eq_true, if_false, false_and, true_and, false_or]
    cases hr : regOf idx with
    | none => exact .inl rfl
    | some r =>
      have hi := (index_of_regOf idx r hr).symm
      by_cases hro : r.readOnly = true
      · exact .inl (if_pos hro)
      by_cases hk : (r.lockable && s.keylock) = true
      · exact .inr (.inl ⟨by simp at hk; exact hk.2, by simp only [if_neg hro, if_pos hk]⟩)
      have hl : r.lockable = true → s.keylock = false := by simpa using hk
      simp only [if_neg hro, if_neg hk]
      cases r with
      | cmd => exact .inr (.inr (.inl ⟨hi, rfl⟩))
      | ctrl => exact .inr (.inr (.inr (.inl ⟨hi, rfl⟩)))
      | status | res => exact absurd rfl hro
      | opa | opb | modulus | invmult => exact .inr (.inr (.inr (.inr ⟨_, hi, hl, rfl⟩)))
      | priv j | pub j => exact .inr (.inr (.inr (.inr ⟨_, hi, hl, rfl⟩)))
  · exact .inl ⟨rfl, rfl⟩

theorem hostWrite_busy (idx : Index) (v : Word W) (s : State W) (h : s.busy = true) :
    hostWrite idx v s = raise .eBusy s := by simp [hostWrite, h]

/-- What a word written to CMD can do (40_command_protocol.md R70). -/
theorem issue_cases (v : Word W) (s : State W) :
    (1 ≤ v.toNat ∧ v.toNat ≤ 6 ∧ issue v s = accept v s) ∨
    (v.toNat = 7 ∧ issue v s = acknowledge v s) ∨
    ((v.toNat = 0 ∨ 8 ≤ v.toNat) ∧ issue v s = raise .eIllegalCmd s) := by
  rw [issue_eq]
  split_ifs with h1 h2
  · exact .inl ⟨h1.1, h1.2, rfl⟩
  · exact .inr (.inl ⟨h2, rfl⟩)
  · exact .inr (.inr ⟨by omega, rfl⟩)

/-- No host write touches RES, FLAG, `rdata` or the coming edges (10_state.md R11, R16). -/
theorem hostWrite_frame (idx : Index) (v : Word W) (s : State W) :
    (hostWrite idx v s).res = s.res ∧ (hostWrite idx v s).flag = s.flag ∧ (hostWrite idx v s).rdata = s.rdata ∧
      (hostWrite idx v s).edges = s.edges := by
  rcases hostWrite_cases idx v s with ⟨-, e⟩ | ⟨-, e⟩ | ⟨-, -, e⟩ | ⟨-, -, e⟩ | ⟨-, -, e⟩ | ⟨-, r, -, -, e⟩ <;> rw [e]
  case inr.inr.inr.inl =>
    rcases issue_cases v s with ⟨-, -, e⟩ | ⟨-, e⟩ | ⟨-, e⟩ <;> rw [e] <;> simp
  case inr.inr.inr.inr.inr => cases r <;> simp [State.put]
  all_goals simp

/-- With KEYLOCK set no host write touches the key material or KEYLOCK (60_exceptions.md R145). -/
theorem hostWrite_locked (idx : Index) (v : Word W) (s : State W) (h : s.keylock = true) :
    (hostWrite idx v s).keylock = true ∧ (hostWrite idx v s).modulus = s.modulus ∧
      (hostWrite idx v s).invmult = s.invmult ∧ (hostWrite idx v s).priv = s.priv ∧ (hostWrite idx v s).pub = s.pub := by
  rcases hostWrite_cases idx v s with ⟨-, e⟩ | ⟨-, e⟩ | ⟨-, -, e⟩ | ⟨-, -, e⟩ | ⟨-, -, e⟩ | ⟨-, r, -, l, e⟩ <;> rw [e]
  case inr.inr.inr.inl =>
    rcases issue_cases v s with ⟨-, -, e⟩ | ⟨-, e⟩ | ⟨-, e⟩ <;> rw [e] <;> simp [h]
  case inr.inr.inr.inr.inr => cases r <;> simp_all [State.put, Reg.lockable]
  all_goals simp [h]

/-! ### the invariant -/

theorem raise_inv (c : FaultCode) (s : State W) (h : s.Inv) : (raise c s).Inv := by
  obtain ⟨h1, h2, h3, h4⟩ := h
  refine ⟨?_, by simpa using h2, by simpa using h3, by simpa using h4⟩
  cases he : s.err <;> simp_all

theorem finish_inv (o : CmdOutcome) (s : State W) (h : s.Inv) (hb : s.busy = true) : (finish o s).Inv := by
  refine ⟨?_, by simp, by simpa using h.2.2.1, by simpa using h.2.2.2 (.inl hb)⟩
  cases o with
  | result r f => simpa [deliver] using h.1
  | fault c => simpa [deliver] using (raise_inv c s h).1

theorem hostWrite_inv (idx : Index) (v : Word W) (s : State W) (h : s.Inv) : (hostWrite idx v s).Inv := by
  rcases hostWrite_cases idx v s with ⟨-, e⟩ | ⟨-, e⟩ | ⟨-, -, e⟩ | ⟨hb, -, e⟩ | ⟨-, -, e⟩ | ⟨-, r, -, -, e⟩ <;> rw [e]
  case inr.inr.inr.inl =>
    rcases issue_cases v s with ⟨l, u, e⟩ | ⟨l, e⟩ | ⟨-, e⟩ <;> rw [e]
    · exact ⟨by simpa using h.1, by simp, by simp; omega, by simp; omega⟩
    · exact ⟨by simp, by simp, by simp; omega, by simp [hb]⟩
    · exact raise_inv _ _ h
  case inr.inr.inr.inr.inr => cases r <;> exact h
  case inr.inr.inr.inr.inl => exact h
  all_goals exact raise_inv _ _ h

/-! ### an instruction is a port cycle -/

/-- What every instruction does at its own edge: the port cycle of its access (30_encoding.md R66). -/
theorem exec_eq_portCycle (i : Instr) (s : State) : exec i s = .next (portCycle i.access s) := by
  cases i <;> rfl

theorem decodeCommand_access (v : Word W) (i : Instr W) (h : decodeCommand v = some i) :
    i.access = { we := true, addr := 0, wdata := v } := by
  unfold decodeCommand at h
  split at h
  case isFalse => cases h
  case isTrue hl =>
    obtain ⟨h1, h7⟩ := (legalCommand_iff v).1 hl
    have hv : v = BitVec.ofNat W v.toNat := by simp
    have ho : (opField v).toNat = v.toNat := by rw [opField_toNat]; omega
    unfold instrOfOpcode at h
    rw [ho] at h
    generalize v.toNat = n at *
    subst hv
    obtain rfl | rfl | rfl | rfl | rfl | rfl | rfl : n = 1 ∨ n = 2 ∨ n = 3 ∨ n = 4 ∨ n = 5 ∨ n = 6 ∨ n = 7 := by omega
    all_goals (cases h; rfl)

/-- The access of the instruction an access stands for is that access, its `wdata` ignored on a read (20_memory.md R41). -/
theorem decodeAccess_access (a : Access W) : (decodeAccess a).access = if a.we then a else { a with wdata := 0 } := by
  obtain ⟨we, addr, wdata⟩ := a
  cases we
  · rfl
  · show (if addr = 0 then (decodeCommand wdata).getD (.wr addr wdata) else .wr addr wdata).access = _
    by_cases ha : addr = 0
    · rw [if_pos ha]
      cases hd : decodeCommand wdata with
      | none => rfl
      | some i => simp only [Option.getD_some, decodeCommand_access _ _ hd, ha]; rfl
    · rw [if_neg ha]; rfl

/-- What the instruction of an access does (20_memory.md R41, R43, R44). -/
theorem exec_decodeAccess (a : Access) (s : State) : exec (decodeAccess a) s = .next (portCycle a s) := by
  rw [exec_eq_portCycle, decodeAccess_access]
  obtain ⟨we, addr, wdata⟩ := a
  cases we <;> rfl

end Sys2Proof.Machine
end

