-- ==== Sys2Proof/Laws/NumberTheory.lean ====
section
/-! SUPPORT. What the number-theory functions compute: `isqrt` (00_scope.md, notation), trial division
(41_number_theory.md R90), the Euclidean algorithm (R92) and the inverse (R94, with the proof R96 asks for). -/

namespace Sys2Proof.Machine

variable {W : Nat}

/-! ### isqrt -/

theorem isqrtDigits_bounds (fuel : Nat) :
    ∀ n, n < 4 ^ fuel → isqrtDigits fuel n * isqrtDigits fuel n ≤ n ∧
      n < (isqrtDigits fuel n + 1) * (isqrtDigits fuel n + 1) := by
  induction fuel with
  | zero => intro n h; simp at h; subst h; simp [isqrtDigits]
  | succ k ih =>
    intro n h
    have hq : n / 4 < 4 ^ k := by rw [pow_succ] at h; omega
    obtain ⟨lo, hi⟩ := ih (n / 4) hq
    simp only [isqrtDigits]
    generalize isqrtDigits k (n / 4) = r at lo hi
    have h1 : 4 * (r * r) ≤ n := by omega
    have h2 : n < 4 * ((r + 1) * (r + 1)) := by omega
    split
    · rename_i hs
      refine ⟨hs, ?_⟩
      nlinarith
    · rename_i hs
      refine ⟨by nlinarith, by omega⟩

/-- `isqrt n` is the largest `s` with `s * s ≤ n`. -/
theorem isqrt_spec (n : Nat) : isqrt n * isqrt n ≤ n ∧ n < (isqrt n + 1) * (isqrt n + 1) := by
  refine isqrtDigits_bounds _ n (lt_of_lt_of_le (Nat.lt_log2_self) ?_)
  exact Nat.pow_le_pow_left (by decide) _

theorem isqrt_eq_sqrt (n : Nat) : isqrt n = Nat.sqrt n := by
  obtain ⟨lo, hi⟩ := isqrt_spec n
  exact Nat.eq_sqrt.2 ⟨lo, hi⟩

/-! ### trial division -/

theorem dividedBySome_iff (n k : Nat) :
    dividedBySome n k = true ↔ ∃ d, 2 ≤ d ∧ d ≤ k + 1 ∧ n % d = 0 := by
  induction k with
  | zero => simp [dividedBySome]; omega
  | succ k ih =>
    simp only [dividedBySome, Bool.or_eq_true, beq_iff_eq, ih]
    constructor
    · rintro (h | ⟨d, h1, h2, h3⟩)
      · exact ⟨k + 2, by omega, by omega, h⟩
      · exact ⟨d, h1, by omega, h3⟩
    · rintro ⟨d, h1, h2, h3⟩
      rcases Nat.lt_or_ge d (k + 2) with h | h
      · exact .inr ⟨d, h1, by omega, h3⟩
      · obtain rfl : d = k + 2 := by omega
        exact .inl h3

theorem hasTrialDivisor_iff (n : Nat) :
    hasTrialDivisor n = true ↔ ∃ d, 2 ≤ d ∧ d ≤ isqrt n ∧ n % d = 0 := by
  rw [hasTrialDivisor, dividedBySome_iff]
  constructor <;> rintro ⟨d, h1, h2, h3⟩ <;> exact ⟨d, h1, by omega, h3⟩

/-! ### the Euclidean algorithm -/

theorem euclid_eq_gcd (fuel : Nat) : ∀ a b, b < fuel → euclid fuel a b = Nat.gcd a b := by
  induction fuel with
  | zero => intro a b h; omega
  | succ k ih =>
    intro a b h
    simp only [euclid]
    split
    · rename_i hb; simp [hb]
    · rename_i hb
      rw [ih _ _ (lt_of_lt_of_le (Nat.mod_lt _ (by omega)) (by omega)), Nat.gcd_comm a b, Nat.gcd_rec b a,
        Nat.gcd_comm]

theorem euclidGcd_eq_gcd (a b : Nat) : euclidGcd a b = Nat.gcd a b := euclid_eq_gcd _ a b (by omega)

/-! ### the modular inverse -/

/-- The invariant of the extended iteration (41_number_theory.md R96): each remainder is its coefficient times `a` modulo
`m`, and the first result is the greatest common divisor. -/
theorem extendedEuclid_spec (a m : Nat) (fuel : Nat) :
    ∀ (r0 r1 : Nat) (t0 t1 : Int), r1 < fuel → (m : Int) ∣ t0 * a - r0 → (m : Int) ∣ t1 * a - r1 →
      (extendedEuclid fuel r0 r1 t0 t1).1 = Nat.gcd r0 r1 ∧
        (m : Int) ∣ (extendedEuclid fuel r0 r1 t0 t1).2 * a - (extendedEuclid fuel r0 r1 t0 t1).1 := by
  induction fuel with
  | zero => intro r0 r1 t0 t1 h; omega
  | succ k ih =>
    intro r0 r1 t0 t1 h h0 h1
    simp only [extendedEuclid]
    split
    · rename_i hz; subst hz; exact ⟨by simp, h0⟩
    · rename_i hz
      have hlt : r0 % r1 < k := lt_of_lt_of_le (Nat.mod_lt _ (by omega)) (by omega)
      have hdiv : (m : Int) ∣ (t0 - (r0 / r1 : Nat) * t1) * a - (r0 % r1 : Nat) := by
        have e : ((r0 % r1 : Nat) : Int) = r0 - (r0 / r1 : Nat) * r1 := by
          push_cast
          rw [Int.emod_def]
          ring
        rw [e]
        have : (t0 - (r0 / r1 : Nat) * t1) * (a : Int) - (r0 - (r0 / r1 : Nat) * r1)
            = (t0 * a - r0) - (r0 / r1 : Nat) * (t1 * a - r1) := by ring
        rw [this]
        exact dvd_sub h0 (Dvd.dvd.mul_left h1 _)
      obtain ⟨g, d⟩ := ih r1 (r0 % r1) t1 _ hlt h1 hdiv
      refine ⟨?_, d⟩
      rw [g, Nat.gcd_comm r0 r1, Nat.gcd_rec r1 r0, Nat.gcd_comm]

/-- `modinv a m` is below `m` and is an inverse of `a` modulo `m` (41_number_theory.md R94). -/
theorem modinv_spec (a m : Nat) (hm : 1 ≤ m) (hg : Nat.gcd a m = 1) :
    modinv a m < m ∧ a * modinv a m % m = 1 % m := by
  have hmod : a % m < m := Nat.mod_lt _ hm
  obtain ⟨g, d⟩ := extendedEuclid_spec a m (m + 1) m (a % m) 0 1 (by omega) (by simp) (by
    have : (m : Int) ∣ (a : Int) - (a % m : Nat) := by
      rw [Int.natCast_mod]; exact Int.dvd_self_sub_emod
    simpa using this)
  have hg1 : (extendedEuclid (m + 1) m (a % m) 0 1).1 = 1 := by
    rw [g, Nat.gcd_comm, ← Nat.gcd_rec, Nat.gcd_comm]; exact hg
  rw [hg1] at d
  unfold modinv
  generalize (extendedEuclid (m + 1) m (a % m) 0 1).2 = t at d
  have hpos : (0 : Int) < m := by exact_mod_cast hm
  have h0 : 0 ≤ t % (m : Int) := Int.emod_nonneg _ (by omega)
  have hlt : t % (m : Int) < m := Int.emod_lt_of_pos _ hpos
  refine ⟨by omega, ?_⟩
  have dv : (m : Int) ∣ a * (t % (m : Int)) - 1 := by
    have e : a * (t % (m : Int)) - 1 = (t * a - (1 : Nat)) - m * (a * (t / m)) := by
      rw [Int.emod_def]; push_cast; ring
    rw [e]
    exact dvd_sub d (dvd_mul_right _ _)
  have key : ((a * (t % (m : Int)).toNat % m : Nat) : Int) = ((1 % m : Nat) : Int) := by
    push_cast
    rw [Int.toNat_of_nonneg h0]
    exact Int.emod_eq_emod_iff_emod_sub_eq_zero.2 (Int.emod_eq_zero_of_dvd dv)
  exact_mod_cast key

/-- The inverse is unique in `[0, m-1]` (41_number_theory.md R94). -/
theorem modinv_unique (a m x : Nat) (hm : 1 ≤ m) (hg : Nat.gcd a m = 1) (hx : x < m)
    (h : a * x % m = 1 % m) : x = modinv a m := by
  obtain ⟨lt, e⟩ := modinv_spec a m hm hg
  have c : a * x ≡ a * modinv a m [MOD m] := by rw [Nat.ModEq, h, e]
  have := Nat.ModEq.cancel_left_of_coprime (by rw [Nat.gcd_comm]; exact hg) c
  exact Nat.ModEq.eq_of_lt_of_lt this hx lt

end Sys2Proof.Machine
end

