-- ==== Sys2Proof/Laws/Units.lean ====
section
/-! SUPPORT. The validator, the summer and the decoder element by element, and that every result fits the register
(42_superincreasing.md R111; 43_transcoder.md R120 to R123; 40_command_protocol.md R73). -/

namespace Sys2Proof.Machine

variable {W : Nat}

/-- The summer's value lane by lane (43_transcoder.md R120). -/
theorem ksum_eq_sum (b : Nat) (p : Bank W) : ksum b p = ∑ j : Fin 8, ksumLane b p j := by
  simp [ksum, elementNumbers, Fin.sum_univ_succ]

/-- What remains before each comparison of the greedy loop: `greedyRest p x 8` is the reduced value, `greedyRest p x 0` the
residual (43_transcoder.md R122). -/
def greedyRest (p : Bank W) (x : Nat) (j : Nat) : Nat :=
  if h : j < 8 then
    if element p ⟨j, h⟩ ≤ greedyRest p x (j + 1) then greedyRest p x (j + 1) - element p ⟨j, h⟩
    else greedyRest p x (j + 1)
  else x
  termination_by 8 - j

theorem greedyRest_eight (p : Bank W) (x : Nat) : greedyRest p x 8 = x := by rw [greedyRest]; simp

theorem greedyRest_fin (p : Bank W) (x : Nat) (j : Fin 8) : greedyRest p x j.val =
    if element p j ≤ greedyRest p x (j.val + 1) then greedyRest p x (j.val + 1) - element p j
    else greedyRest p x (j.val + 1) := by rw [greedyRest]; simp

theorem greedyStep_eq (p : Bank W) (x byte : Nat) (j : Fin 8) :
    greedyStep p (byte, greedyRest p x (j.val + 1)) j =
      (byte + (decide (element p j ≤ greedyRest p x (j.val + 1))).toNat * positionWeight j, greedyRest p x j.val) := by
  rw [greedyRest_fin]
  unfold greedyStep
  by_cases h : element p j ≤ greedyRest p x (j.val + 1) <;> simp [h]

/-- The bit the greedy loop gives to element `j` (43_transcoder.md R122). -/
def greedyBit (p : Bank W) (x : Nat) (j : Fin 8) : Bool := decide (element p j ≤ greedyRest p x (j.val + 1))

/-- The decoder, element by element: bit `j` is set when element `j` fits into what remains (43_transcoder.md R122). -/
theorem greedyDecode_eq (c m q : Nat) (p : Bank W) : greedyDecode c m q p =
    (∑ j : Fin 8, (greedyBit p (c * m % q) j).toNat * positionWeight j, greedyRest p (c * m % q) 0) := by
  have e : greedyDecode c m q p =
      [7, 6, 5, 4, 3, 2, 1, 0].foldl (greedyStep p) (0, greedyRest p (c * m % q) 8) := by
    rw [greedyRest_eight]; rfl
  have h7 : ∀ byte, greedyStep p (byte, greedyRest p (c * m % q) 8) 7 = (byte +
      (greedyBit p (c * m % q) 7).toNat * positionWeight 7, greedyRest p (c * m % q) 7) := fun byte => greedyStep_eq p _ byte 7
  have h6 : ∀ byte, greedyStep p (byte, greedyRest p (c * m % q) 7) 6 = (byte +
      (greedyBit p (c * m % q) 6).toNat * positionWeight 6, greedyRest p (c * m % q) 6) := fun byte => greedyStep_eq p _ byte 6
  have h5 : ∀ byte, greedyStep p (byte, greedyRest p (c * m % q) 6) 5 = (byte +
      (greedyBit p (c * m % q) 5).toNat * positionWeight 5, greedyRest p (c * m % q) 5) := fun byte => greedyStep_eq p _ byte 5
  have h4 : ∀ byte, greedyStep p (byte, greedyRest p (c * m % q) 5) 4 = (byte +
      (greedyBit p (c * m % q) 4).toNat * positionWeight 4, greedyRest p (c * m % q) 4) := fun byte => greedyStep_eq p _ byte 4
  have h3 : ∀ byte, greedyStep p (byte, greedyRest p (c * m % q) 4) 3 = (byte +
      (greedyBit p (c * m % q) 3).toNat * positionWeight 3, greedyRest p (c * m % q) 3) := fun byte => greedyStep_eq p _ byte 3
  have h2 : ∀ byte, greedyStep p (byte, greedyRest p (c * m % q) 3) 2 = (byte +
      (greedyBit p (c * m % q) 2).toNat * positionWeight 2, greedyRest p (c * m % q) 2) := fun byte => greedyStep_eq p _ byte 2
  have h1 : ∀ byte, greedyStep p (byte, greedyRest p (c * m % q) 2) 1 = (byte +
      (greedyBit p (c * m % q) 1).toNat * positionWeight 1, greedyRest p (c * m % q) 1) := fun byte => greedyStep_eq p _ byte 1
  have h0 : ∀ byte, greedyStep p (byte, greedyRest p (c * m % q) 1) 0 = (byte +
      (greedyBit p (c * m % q) 0).toNat * positionWeight 0, greedyRest p (c * m % q) 0) := fun byte => greedyStep_eq p _ byte 0
  rw [e]
  simp only [List.foldl_cons, List.foldl_nil, h7, h6, h5, h4, h3, h2, h1, h0, Fin.sum_univ_eight]
  refine Prod.ext ?_ rfl
  simp only
  omega

theorem weightedBits_lt (f : Fin 8 → Bool) : ∑ j : Fin 8, (f j).toNat * positionWeight j < 256 := by
  have h : ∀ b : Bool, b.toNat ≤ 1 := by decide
  simp only [Fin.sum_univ_eight, positionWeight]
  have := h (f 0); have := h (f 1); have := h (f 2); have := h (f 3)
  have := h (f 4); have := h (f 5); have := h (f 6); have := h (f 7)
  simp
  omega

/-- The decoder's byte is below 256 (43_transcoder.md R123). -/
theorem greedyDecode_byte_lt (c m q : Nat) (p : Bank W) : (greedyDecode c m q p).1 < 256 := by
  rw [greedyDecode_eq]; exact weightedBits_lt _

/-- Every result fits the W-bit register, at every width (40_command_protocol.md R73; 00_scope.md R5). -/
theorem outcomeOf_fits (hW : Config.WidthAllowed W) (op : BitVec 4) (s : State W) (r : Nat) (f : Bool)
    (h : outcomeOf op s = some (.result r f)) : r < 2 ^ W := by
  have ha : s.opa.toNat < 2 ^ W := s.opa.isLt
  have hb : s.opb.toNat < 2 ^ W := s.opb.isLt
  have big : 256 < 2 ^ W := lt_of_lt_of_le (by decide) (Nat.pow_le_pow_right (by decide) hW)
  have bit : ∀ b : Bool, b.toNat < 2 ^ W := fun b => lt_trans (by cases b <;> decide) big
  unfold outcomeOf at h
  split at h
  · simp only [modinvOutcome, Option.some.injEq] at h
    split_ifs at h with h0 h1 hg
    · cases h; omega
    · cases h
      rw [euclidGcd_eq_gcd, not_not] at hg
      exact lt_trans (modinv_spec _ _ (by omega) hg).1 hb
  · cases h
    rw [euclidGcd_eq_gcd]
    rcases Nat.eq_zero_or_pos s.opa.toNat with h0 | h0
    · rw [h0, Nat.gcd_zero_left]; exact hb
    · exact lt_of_le_of_lt (Nat.gcd_le_left _ h0) ha
  · cases h; exact bit _
  · cases h; exact bit _
  · simp only [ksumOutcome, Option.some.injEq] at h
    split_ifs at h with h0 h1
    cases h; omega
  · simp only [gdecOutcome, Option.some.injEq] at h
    split_ifs at h with h0
    cases h
    exact lt_trans (greedyDecode_byte_lt _ _ _ _) big
  · cases h

end Sys2Proof.Machine
end

