-- ==== Sys2Proof/Laws/Clock.lean ====
section
/-! SUPPORT. What one clock edge can do, said once (20_memory.md R54; 70_reset_and_hazards.md R170), and that it keeps the
invariant's register relations. -/

namespace Sys2Proof.Machine

variable {W : Nat}

/-- The registers after the host's part of an edge: a write cycle, a read cycle or an idle cycle (20_memory.md R41). -/
theorem hostCycle_eq (e : Edge W) (s : State W) : hostCycle e s =
    if e.sel then (if e.we then writeCycle e.addr e.wdata s else readCycle e.addr s) else idleCycle s := rfl

theorem hostPart_eq (e : Edge) (s : State) : hostPart e s = .next (hostCycle e s) := by
  unfold hostPart hostCycle
  cases e.sel <;> simp [exec_decodeAccess]

/-- The machine is the block at the default width (00_scope.md R5). -/
theorem step_eq_stepAt (s : State) : step s = stepAt s := by
  unfold step stepAt
  congr 1
  funext e t
  exact hostPart_eq e t

/-- An edge without reset: the host's part and then the engine's (20_memory.md R54). -/
theorem stepAt_eq (s : State W) (h : (nextEdge s).rst = false) :
    stepAt s = enginePart (nextEdge s) s.busy (hostCycle (nextEdge s) (dropEdge s)) := by
  simp only [stepAt, clockEdge, h, Bool.false_eq_true, if_false, andThen]
  rfl

/-- Everything a step that answers a next state can do: reset, the host's part alone, or the host's part and the completion
of the command in flight. -/
theorem stepAt_cases (s t : State W) (h : stepAt s = .next t) :
    ((nextEdge s).rst = true ∧ t = resetCycle (nextEdge s) (dropEdge s)) ∨
    ((nextEdge s).rst = false ∧ (s.busy && (nextEdge s).completes) = false ∧
      t = hostCycle (nextEdge s) (dropEdge s)) ∨
    ((nextEdge s).rst = false ∧ s.busy = true ∧ (nextEdge s).completes = true ∧
      ∃ o, outcomeOf (opField (hostCycle (nextEdge s) (dropEdge s)).cmd) (hostCycle (nextEdge s) (dropEdge s)) = some o ∧
        t = finish o (hostCycle (nextEdge s) (dropEdge s))) := by
  cases hr : (nextEdge s).rst
  · refine .inr ?_
    rw [stepAt_eq s hr] at h
    unfold enginePart at h
    cases hc : s.busy && (nextEdge s).completes
    · rw [hc] at h; cases h; exact .inl ⟨rfl, rfl, rfl⟩
    · rw [hc] at h
      simp only [if_true, completeInFlight] at h
      simp only [Bool.and_eq_true] at hc
      refine .inr ⟨rfl, hc.1, hc.2, ?_⟩
      split at h
      · cases h; exact ⟨_, ‹_›, rfl⟩
      · cases h
  · simp only [stepAt, clockEdge, hr, if_true, Host.Outcome.next.injEq] at h
    exact .inl ⟨rfl, h.symm⟩

theorem step_eq (s : State) (h : (nextEdge s).rst = false) :
    step s = enginePart (nextEdge s) s.busy (hostCycle (nextEdge s) (dropEdge s)) :=
  (step_eq_stepAt s).trans (stepAt_eq s h)

theorem step_cases (s t : State) (h : step s = .next t) :
    ((nextEdge s).rst = true ∧ t = resetCycle (nextEdge s) (dropEdge s)) ∨
    ((nextEdge s).rst = false ∧ (s.busy && (nextEdge s).completes) = false ∧
      t = hostCycle (nextEdge s) (dropEdge s)) ∨
    ((nextEdge s).rst = false ∧ s.busy = true ∧ (nextEdge s).completes = true ∧
      ∃ o, outcomeOf (opField (hostCycle (nextEdge s) (dropEdge s)).cmd) (hostCycle (nextEdge s) (dropEdge s)) = some o ∧
        t = finish o (hostCycle (nextEdge s) (dropEdge s))) :=
  stepAt_cases s t (step_eq_stepAt s ▸ h)

/-- While BUSY the host's part changes nothing but the fault record and `rdata` (40_command_protocol.md R72). -/
theorem hostCycle_busy (e : Edge W) (s : State W) (h : s.busy = true) :
    hostCycle e s = { (if e.sel && e.we then raise .eBusy s else s) with rdata := portRdata e s } := by
  rw [hostCycle_eq]
  unfold portRdata
  cases e.sel <;> cases e.we <;> simp [writeCycle, readCycle, idleCycle, showRdata, hostWrite_busy _ _ _ h]

/-- The host's part never touches RES, FLAG or the coming edges. -/
theorem hostCycle_frame (e : Edge W) (s : State W) :
    (hostCycle e s).res = s.res ∧ (hostCycle e s).flag = s.flag ∧ (hostCycle e s).edges = s.edges := by
  have h := hostWrite_frame e.addr e.wdata s
  rw [hostCycle_eq]
  split_ifs <;> simp [writeCycle, readCycle, h]

theorem hostCycle_inv (e : Edge W) (s : State W) (h : s.Inv) : (hostCycle e s).Inv := by
  rw [hostCycle_eq]
  split_ifs
  · exact hostWrite_inv _ _ _ h
  · exact h
  · exact h

/-- The outcome depends on nothing but the registers the command reads, so it does not depend on the fault record or on
`rdata` (10_state.md R24; 30_encoding.md R64). -/
theorem outcomeOf_congr (op : BitVec 4) (s t : State W) (h1 : s.opa = t.opa) (h2 : s.opb = t.opb)
    (h3 : s.modulus = t.modulus) (h4 : s.invmult = t.invmult) (h5 : s.priv = t.priv) (h6 : s.pub = t.pub) :
    outcomeOf op s = outcomeOf op t := by
  simp [outcomeOf, h1, h2, h3, h4, h5, h6]

/-- A legal state in flight has an outcome (40_command_protocol.md R76). -/
theorem outcomeOf_isSome (s : State W) (h : s.Inv) (hb : s.busy = true) : ∃ o, outcomeOf (opField s.cmd) s = some o := by
  obtain ⟨l, u⟩ := h.2.2.2 (.inl hb)
  have ho : (opField s.cmd).toNat = s.cmd.toNat := by rw [opField_toNat]; omega
  unfold outcomeOf
  rw [ho]
  generalize s.cmd.toNat = n at *
  obtain rfl | rfl | rfl | rfl | rfl | rfl : n = 1 ∨ n = 2 ∨ n = 3 ∨ n = 4 ∨ n = 5 ∨ n = 6 := by omega
  all_goals exact ⟨_, rfl⟩

/-! ### runs -/

@[simp] theorem run_zero (s : State) : run 0 s = .next s := rfl

theorem run_succ (k : Nat) (s : State) : run (k + 1) s = andThen (step s) (run k) := rfl

/-- A run of `k + 1` steps is a step and a run of `k`. -/
theorem run_succ_of_step (k : Nat) (s t : State) (h : step s = .next t) : run (k + 1) s = run k t := by
  rw [run_succ, h, andThen]

theorem core_run_next (M : Host.Core) (k : Nat) (s t : M.State) (h : M.step s = .next t) :
    M.run (k + 1) s = M.run k t := by simp [Host.Core.run, h]

theorem core_run_fault (M : Host.Core) (k : Nat) (s : M.State) (r : M.Fault) (h : M.step s = .fault r) :
    M.run (k + 1) s = .fault r := by simp [Host.Core.run, h]

theorem core_run_refused (M : Host.Core) (k : Nat) (s : M.State) (r : M.Refusal) (h : M.step s = .refused r) :
    M.run (k + 1) s = .refused r := by simp [Host.Core.run, h]

/-- A run is the host interface's run of the machine. -/
theorem run_eq_core_run (k : Nat) : ∀ s : State, Host.Core.run Sys2Proof.core k s = run k s := by
  induction k with
  | zero => intro s; rfl
  | succ k ih =>
    intro s
    rw [run_succ]
    cases h : step s with
    | next t => exact (core_run_next Sys2Proof.core k s t h).trans (ih t)
    | fault r => exact core_run_fault Sys2Proof.core k s r h
    | refused r => exact core_run_refused Sys2Proof.core k s r h

end Sys2Proof.Machine
end

