-- ==== Sys2Proof/Laws/Decode.lean ====
section
/-! SUPPORT. Bytes and numbers, and which words are commands (30_encoding.md R60 to R65; log 9). -/

namespace Sys2Proof

variable {W : Nat}

open Sys2Proof.Machine

@[simp] theorem bytesOfNat_length (k : Nat) : ∀ n, (bytesOfNat k n).length = k := by
  induction k with
  | zero => intro n; rfl
  | succ k ih => intro n; simp [bytesOfNat, ih]

/-- The number of `k` bytes of `n` is `n` modulo `256 ^ k`. -/
theorem natOfBytes_bytesOfNat (k : Nat) : ∀ n, natOfBytes (bytesOfNat k n) = n % 256 ^ k := by
  induction k with
  | zero => intro n; simp [bytesOfNat, natOfBytes, Nat.mod_one]
  | succ k ih =>
    intro n
    simp only [bytesOfNat, natOfBytes, ih, BitVec.toNat_ofNat]
    rw [show (256 : Nat) ^ (k + 1) = 256 * 256 ^ k by ring, Nat.mod_mul]

theorem natOfBytes_lt (bs : List Byte) : natOfBytes bs < 256 ^ bs.length := by
  induction bs with
  | nil => simp [natOfBytes]
  | cons b bs ih =>
    have := b.isLt
    simp only [natOfBytes, List.length_cons, pow_succ]
    omega

/-- Bytes are the bytes of their number. -/
theorem bytesOfNat_natOfBytes (bs : List Byte) : bytesOfNat bs.length (natOfBytes bs) = bs := by
  induction bs with
  | nil => rfl
  | cons b bs ih =>
    have hb : b.toNat < 256 := b.isLt
    simp only [List.length_cons, bytesOfNat, natOfBytes]
    rw [show (b.toNat + 256 * natOfBytes bs) / 256 = natOfBytes bs by omega, ih]
    congr 1
    apply BitVec.eq_of_toNat_eq
    rw [BitVec.toNat_ofNat]
    omega

/-- Which words are no command, by their number (30_encoding.md R63). -/
theorem decodeCommand_eq_none_iff (v : Word W) : decodeCommand v = none ↔ v.toNat = 0 ∨ 8 ≤ v.toNat := by
  unfold decodeCommand
  split
  case isFalse h =>
    have := (legalCommand_iff v).not.1 h
    simp; omega
  case isTrue h =>
    obtain ⟨l, u⟩ := (legalCommand_iff v).1 h
    have ho : (opField v).toNat = v.toNat := by rw [opField_toNat]; omega
    unfold instrOfOpcode
    rw [ho]
    generalize v.toNat = n at *
    obtain rfl | rfl | rfl | rfl | rfl | rfl | rfl : n = 1 ∨ n = 2 ∨ n = 3 ∨ n = 4 ∨ n = 5 ∨ n = 6 ∨ n = 7 := by omega
    all_goals simp

/-- A decoded command is well formed, and its word is the word decoded (30_encoding.md R62). -/
theorem decodeCommand_word (v : Word W) (i : Instr W) (h : decodeCommand v = some i) :
    i.commandWord = some v ∧ i.wf = true := by
  have ha := decodeCommand_access v i h
  cases i <;> simp_all [Instr.access, Instr.commandWord, Instr.wf]
  all_goals
    rename_i d
    simp [decodeCommand] at h
    obtain ⟨-, h⟩ := h
    unfold instrOfOpcode at h
    split at h <;> cases h

end Sys2Proof
end

