-- ==== Sys2Proof/Laws/HostProgram.lean ====
section
/-! SUPPORT. What one cycle of a host program can do, said once (30_encoding.md R65), and that a step looks at no edge but its
own. -/

namespace Sys2Proof.Machine

variable {W : Nat}

/-- The host's part of an edge does not depend on the coming edges. -/
theorem hostCycle_edges (e : Edge W) (s : State W) (l : List (Edge W)) :
    hostCycle e { s with edges := l } = { hostCycle e s with edges := l } := by
  have raise_edges_comm : ∀ c, raise c { s with edges := l } = { raise c s with edges := l } := by
    intro c; unfold raise; cases h : s.err <;> simp [h]
  have issue_edges_comm : ∀ v, issue v { s with edges := l } = { issue v s with edges := l } := by
    intro v; unfold issue; rw [raise_edges_comm]; split_ifs <;> rfl
  have write_edges_comm : hostWrite e.addr e.wdata { s with edges := l } = { hostWrite e.addr e.wdata s with edges := l } := by
    unfold hostWrite
    simp only [raise_edges_comm]
    split_ifs
    · rfl
    · split
      · rfl
      · split_ifs
        · rfl
        · rfl
        · split <;> first | exact issue_edges_comm _ | rfl
  rw [hostCycle_eq, hostCycle_eq]
  split_ifs
  · unfold writeCycle; rw [write_edges_comm]; rfl
  · rfl
  · rfl

/-- Completion does not depend on the coming edges. -/
theorem finish_edges_comm (o : CmdOutcome) (s : State W) (l : List (Edge W)) :
    finish o { s with edges := l } = { finish o s with edges := l } := by
  cases o with
  | result r f => rfl
  | fault c => unfold finish deliver raise; cases h : s.err <;> simp [h]

/-- A cycle in which no command completes is the host's part alone. -/
theorem drive_quiet (e : Edge) (c : Bool) (s : State) (hr : e.rst = false) (h : (s.busy && c) = false) :
    drive e c s = .next (hostCycle e s) := by
  unfold drive
  rw [step_eq _ (by exact hr)]
  show enginePart { e with completes := c } s.busy (hostCycle e s) = _
  simp only [enginePart, h]
  rfl

/-- A cycle at which the command in flight completes is the host's part and then the outcome. -/
theorem drive_completes (e : Edge) (s : State) (o : CmdOutcome) (hr : e.rst = false) (hb : s.busy = true)
    (ho : outcomeOf (opField s.cmd) s = some o) : drive e true s = .next (finish o (hostCycle e s)) := by
  unfold drive
  rw [step_eq _ (by exact hr)]
  show enginePart { e with completes := true } s.busy (hostCycle e s) = _
  have same : outcomeOf (opField (hostCycle e s).cmd) (hostCycle e s) = some o := by
    rw [hostCycle_busy e s hb, ← ho]
    split_ifs
    · exact (congrArg (fun c => outcomeOf (opField c) _) (by simp)).trans
        (outcomeOf_congr _ _ _ (by simp) (by simp) (by simp) (by simp) (by simp) (by simp))
    · exact outcomeOf_congr _ _ _ rfl rfl rfl rfl rfl rfl
  simp only [enginePart, hb, completeInFlight, same, Bool.and_self, if_true]

/-- A reset cycle, whatever the engine would do (70_reset_and_hazards.md R170). -/
theorem drive_reset (c : Bool) (s : State) : drive resetEdge c s = .next { State.reset with edges := s.edges } := rfl

/-- A step answers the same whatever edges come after its own. -/
theorem step_other_edges (s t : State) (e : Edge) (l l' : List Edge) (h : step { s with edges := e :: l } = .next t) :
    t.edges = l ∧ step { s with edges := e :: l' } = .next { t with edges := l' } := by
  rw [step_eq_stepAt] at h ⊢
  have next_is : ∀ m, nextEdge { s with edges := e :: m } = e := fun _ => rfl
  have drop_is : ∀ m, dropEdge { s with edges := e :: m } = { s with edges := m } := fun _ => rfl
  rcases stepAt_cases _ _ h with ⟨a, b⟩ | ⟨a, c, b⟩ | ⟨a, hb, c, o, ho, b⟩
  · rw [next_is] at a b; subst b
    refine ⟨rfl, ?_⟩
    simp only [stepAt, clockEdge, next_is, drop_is, a, if_true, resetCycle]
    rfl
  · rw [next_is] at a b c; rw [drop_is, hostCycle_edges] at b
    subst b
    refine ⟨rfl, ?_⟩
    rw [stepAt_eq _ (by rw [next_is]; exact a), next_is, drop_is, hostCycle_edges]
    have c' : (s.busy && e.completes) = false := c
    show enginePart e s.busy _ = _
    simp only [enginePart, c', Bool.false_eq_true, if_false]
  · rw [next_is] at a b c ho; rw [drop_is, hostCycle_edges] at b ho
    subst b
    refine ⟨by simp, ?_⟩
    rw [stepAt_eq _ (by rw [next_is]; exact a), next_is, drop_is, hostCycle_edges e s l']
    have hb' : s.busy = true := hb
    show enginePart e s.busy _ = _
    have same : outcomeOf (opField ({ hostCycle e s with edges := l' } : State).cmd) { hostCycle e s with edges := l' } =
        some o := by
      rw [← ho]; exact outcomeOf_congr _ _ _ rfl rfl rfl rfl rfl rfl
    simp only [enginePart, hb', c, Bool.and_self, if_true, completeInFlight, same]
    rw [finish_edges_comm o _ l, finish_edges_comm o _ l']

/-- Nothing is left to do. -/
@[simp] theorem play_done (slots : List Slot) (s : State) : play slots [] s = .next { state := s, todo := [] } := by
  cases slots <;> rfl

/-- The schedule is used up. -/
@[simp] theorem play_no_slots (ops : List HostOp) (s : State) : play [] ops s = .next { state := s, todo := ops } := rfl

/-- One cycle of a schedule with something to do. -/
theorem play_slot (slot : Slot) (slots : List Slot) (op : HostOp) (ops : List HostOp) (s : State) :
    play (slot :: slots) (op :: ops) s =
      if slot.idle then andThen (drive (idleEdge false) slot.completes s) (play slots (op :: ops))
      else andThen (drive op.edge slot.completes s) fun t => play slots (if op.again t then op :: ops else ops) t := rfl

end Sys2Proof.Machine
end

