-- ==== Sys2Proof/Laws/PerInstr.lean ====
section
/-! SUPPORT. One lemma per constructor of Instr: the access an instruction is decodes to that instruction
(30_encoding.md R66). -/

namespace Sys2Proof.Laws.AccessRoundTrip

/-- The port access of a well-formed instruction stands for it. -/
def Statement (i : Instr) : Prop := i.wf = true → decodeAccess i.access = i

theorem modinv : Statement .modinv := fun _ => by decide
theorem gcd : Statement .gcd := fun _ => by decide
theorem isprime : Statement .isprime := fun _ => by decide
theorem supchk : Statement .supchk := fun _ => by decide
theorem ksum : Statement .ksum := fun _ => by decide
theorem gdec : Statement .gdec := fun _ => by decide
theorem ack : Statement .ack := fun _ => by decide

theorem wr (addr : Index) (wdata : Word) : Statement (.wr addr wdata) := by
  intro h
  have e : decodeAccess (Instr.wr addr wdata).access =
      if addr = 0 then (decodeCommand wdata).getD (.wr addr wdata) else .wr addr wdata := rfl
  rw [e]
  by_cases ha : addr = 0
  · have hn : decodeCommand wdata = none := by
      rw [decodeCommand_eq_none_iff]
      simp [Instr.wf, ha] at h
      omega
    simp [hn]
  · rw [if_neg ha]

theorem rd (addr : Index) : Statement (.rd addr) := fun _ => rfl

end Sys2Proof.Laws.AccessRoundTrip
end

