-- ==== Sys2Proof/Tests/Slice0.lean ====
section
/-! SUPPORT. Small tests: the WellFormed smoke, words written out from the spec's encodings, one step per instruction on the
numbers of 95_test_vectors.md, and for each statement with hypotheses a concrete case that meets them (`witness_…`). -/

namespace Sys2Proof.Tests

open Sys2Proof.Machine Sys2Proof.Claims

/-- The decoder at the default width. -/
def readBytes (bs : List Byte) : Except DecodeError Instr := decode bs

/-! ### well-formed terms -/

/-- A write of a legal command word to CMD has another spelling, the command: both ends of the range are refused. -/
theorem test_wf_refuses_spelled_out_command :
    (Instr.wr 0x00 1 : Instr).wf = false ∧ (Instr.wr 0x00 7 : Instr).wf = false := by decide

theorem test_wf_accepts :
    (Instr.wr 0x00 0 : Instr).wf = true ∧ (Instr.wr 0x00 8 : Instr).wf = true ∧ (Instr.wr 0x04 1 : Instr).wf = true ∧ (Instr.rd 0x00 : Instr).wf = true ∧
      (Instr.modinv : Instr).wf = true ∧ (Instr.ack : Instr).wf = true := by decide

/-! ### words from the spec's encodings -/

/-- The seven command words, bits OP = 3:0 written out over a zero ZERO field (30_encoding.md R61, R62). -/
theorem test_decode_commands :
    readBytes [0b00000001, 0, 0, 0] = .ok .modinv ∧ readBytes [0b00000010, 0, 0, 0] = .ok .gcd ∧
    readBytes [0b00000011, 0, 0, 0] = .ok .isprime ∧ readBytes [0b00000100, 0, 0, 0] = .ok .supchk ∧
    readBytes [0b00000101, 0, 0, 0] = .ok .ksum ∧ readBytes [0b00000110, 0, 0, 0] = .ok .gdec ∧
    readBytes [0b00000111, 0, 0, 0] = .ok .ack := by decide

/-- Illegal words: OP = 0, OP = 8, OP = 15, bit 4 set, bit 31 set (30_encoding.md R63). -/
theorem test_decode_illegal_words :
    readBytes [0, 0, 0, 0] = .error (.illegalCommand 0) ∧ readBytes [0x08, 0, 0, 0] = .error (.illegalCommand 8) ∧
    readBytes [0x0F, 0, 0, 0] = .error (.illegalCommand 15) ∧ readBytes [0x11, 0, 0, 0] = .error (.illegalCommand 0x11) ∧
    readBytes [0x01, 0, 0, 0x80] = .error (.illegalCommand 0x80000001) := by decide

/-- Records `we addr wdata` bit by bit: `1 00100 43`, `1 11111 2^31`, `0 00001 0`, `0 10011 0` (30_encoding.md R65). -/
theorem test_decode_records :
    readBytes [0x2B, 0, 0, 0, 0b00100100] = .ok (.wr 0x04 43) ∧ readBytes [0, 0, 0, 0x80, 0b00111111] = .ok (.wr 0x1F 0x80000000) ∧
    readBytes [0, 0, 0, 0, 0b00000001] = .ok (.rd 0x01) ∧ readBytes [0, 0, 0, 0, 0b00010011] = .ok (.rd 0x13) := by decide

/-- A write record of a command word is the command; of an illegal word it stays a write (30_encoding.md R66, R63). -/
theorem test_decode_records_of_commands :
    readBytes [0x01, 0, 0, 0, 0x20] = .ok .modinv ∧ readBytes [0x07, 0, 0, 0, 0x20] = .ok .ack ∧
    readBytes [0x17, 0, 0, 0, 0x20] = .ok (.wr 0x00 0x17) := by decide

/-- What is no record: data in a read, a padding bit, other lengths. -/
theorem test_decode_refuses :
    readBytes [1, 0, 0, 0, 0x04] = .error (.readWithData 0x04 1) ∧ readBytes [0, 0, 0, 0, 0x40] = .error (.paddingNotZero 0x4000000000) ∧
    readBytes [] = .error (.badLength 0) ∧ readBytes [1, 0, 0] = .error (.badLength 3) ∧
    readBytes [1, 0, 0, 0, 0, 0] = .error (.badLength 6) := by decide

/-- The encoder against the same hand-written words, and the opcode table's numbering of them. -/
theorem test_encode_and_table_words :
    encode (.gdec : Instr) = [6, 0, 0, 0] ∧ encode (.wr 0x04 43 : Instr) = [0x2B, 0, 0, 0, 0x24] ∧
    encode (.rd 0x01 : Instr) = [0, 0, 0, 0, 0x01] ∧
    decodeTableWord 32 5 = some .ksum ∧ decodeTableWord 32 8 = none ∧ decodeTableWord 38 0x240000002B = some (.wr 0x04 43) ∧
    decodeTableWord 40 0x0100000000 = some (.rd 0x01) := by decide

/-! ### small states -/

/-- From reset, with the operands OPA and OPB written. -/
def operands (a b : Word) : State := { State.reset with opa := a, opb := b }

/-- From reset, with the bank PRIV written. -/
def privBank (v : Bank) : State := { State.reset with priv := v }

/-- From reset, with the key K1 of 95_test_vectors.md 2.6 and OPA written. -/
def keyOne (a : Word) : State :=
  { State.reset with opa := a, modulus := 421, invmult := 235,
                     priv := #v[2, 3, 6, 13, 27, 52, 105, 210], pub := #v[86, 129, 258, 138, 319, 131, 305, 189] }

/-- The state with the command word `c` in flight. -/
def inFlight (c : Word) (s : State) : State := { s with cmd := c, busy := true }

/-- RES and STATUS after one step, whose edge is the completion when a command is in flight and nothing is listed. -/
def resAndStatus (s : State) : Option (Nat × Nat) :=
  match step s with
  | .next t => some (t.res.toNat, (statusWord t).toNat)
  | .fault _ => none
  | .refused _ => none

/-- A word and STATUS after one instruction. -/
def regAndStatus (i : Instr) (idx : Index) (s : State) : Option (Nat × Nat) :=
  match exec i s with
  | .next t => some ((regRead idx t).toNat, (statusWord t).toNat)
  | .fault _ => none
  | .refused _ => none

/-! ### one step per instruction (95_test_vectors.md) -/

/-- 2.4: 43 modulo 421; 65537 modulo 4294967291, whose check product needs 48 bits. -/
theorem test_modinv_results :
    resAndStatus (inFlight 1 (operands 43 421)) = some (235, 0x02) ∧
    resAndStatus (inFlight 1 (operands 65537 4294967291)) = some (3221241852, 0x02) ∧
    resAndStatus (inFlight 1 (operands 0 1)) = some (0, 0x02) ∧
    resAndStatus (inFlight 1 (operands 464 421)) = some (235, 0x02) := by decide +kernel

/-- 2.4: the zero modulus is checked first; not coprime. -/
theorem test_modinv_faults :
    resAndStatus (inFlight 1 (operands 0 0)) = some (0, 0x5A) ∧
    resAndStatus (inFlight 1 (operands 6 9)) = some (0, 0x6A) ∧
    resAndStatus (inFlight 1 (operands 421 421)) = some (0, 0x6A) := by decide +kernel

/-- 2.3. -/
theorem test_gcd :
    resAndStatus (inFlight 2 (operands 18 48)) = some (6, 0x02) ∧
    resAndStatus (inFlight 2 (operands 43 421)) = some (1, 0x06) ∧
    resAndStatus (inFlight 2 (operands 0 0)) = some (0, 0x02) ∧
    resAndStatus (inFlight 2 (operands 4294967295 65537)) = some (65537, 0x02) := by decide +kernel

/-- 2.2: small numbers, the inclusive bound, the example modulus. -/
theorem test_isprime_small :
    resAndStatus (inFlight 3 (operands 1 0)) = some (0, 0x02) ∧
    resAndStatus (inFlight 3 (operands 2 0)) = some (1, 0x06) ∧
    resAndStatus (inFlight 3 (operands 49 0)) = some (0, 0x02) ∧
    resAndStatus (inFlight 3 (operands 421 0)) = some (1, 0x06) := by decide +kernel

/-- 2.2: 65537, and 65535 squared. -/
theorem test_isprime_large :
    resAndStatus (inFlight 3 (operands 65537 0)) = some (1, 0x06) ∧
    resAndStatus (inFlight 3 (operands 4294836225 0)) = some (0, 0x02) := by decide +kernel

/-- 2.5: strict at the last element; each element exceeding the sum by one. -/
theorem test_supchk_strict :
    resAndStatus (inFlight 4 (privBank #v[1, 2, 4, 8, 16, 32, 64, 128])) = some (1, 0x06) ∧
    resAndStatus (inFlight 4 (privBank #v[1, 2, 4, 8, 16, 32, 64, 127])) = some (0, 0x02) := by decide +kernel

/-- 2.5: the sum is exact, a wrapping one would answer 1; the reset bank. -/
theorem test_supchk_exact_sum :
    resAndStatus (inFlight 4 (privBank #v[2147483648, 2147483649, 2, 4, 8, 16, 32, 64])) = some (0, 0x02) ∧
    resAndStatus (inFlight 4 State.reset) = some (0, 0x02) := by decide +kernel

/-- 2.6: key K1; a byte's most significant bit is position 0. -/
theorem test_ksum_bytes :
    resAndStatus (inFlight 5 (keyOne 0x41)) = some (318, 0x02) ∧
    resAndStatus (inFlight 5 (keyOne 0x80)) = some (86, 0x02) ∧
    resAndStatus (inFlight 5 (keyOne 0xFF)) = some (1555, 0x02) := by decide +kernel

/-- 2.6: no byte; a sum of exactly `2^32`. -/
theorem test_ksum_faults :
    resAndStatus (inFlight 5 (keyOne 0x100)) = some (0, 0x7A) ∧
    resAndStatus (inFlight 5 { State.reset with opa := 0xC0, pub := #v[0x80000000, 0x80000000, 0, 0, 0, 0, 0, 0] }) =
      some (0, 0x8A) ∧
    resAndStatus (inFlight 5 { State.reset with opa := 0xC0, pub := #v[0x80000000, 0x7FFFFFFF, 0, 0, 0, 0, 0, 0] }) =
      some (0xFFFFFFFF, 0x02) := by decide +kernel

/-- 2.6: key K1; a residual that is not 0; the largest cipher value. -/
theorem test_gdec_values :
    resAndStatus (inFlight 6 (keyOne 318)) = some (0x41, 0x06) ∧
    resAndStatus (inFlight 6 (keyOne 1)) = some (0xF1, 0x02) ∧
    resAndStatus (inFlight 6 (keyOne 4294967295)) = some (0xF0, 0x02) := by decide +kernel

/-- 2.6: MODULUS = 0; PRIV all 0, where every comparison holds. -/
theorem test_gdec_corners :
    resAndStatus (inFlight 6 { keyOne 318 with modulus := 0 }) = some (0, 0x5A) ∧
    resAndStatus (inFlight 6 { keyOne 318 with priv := Vector.replicate 8 0 }) = some (0xFF, 0x02) := by decide +kernel

/-- 2.1 rows 3 and 8, and the acceptance of a command with DONE = 1 and ERR = 1 (row 16). -/
theorem test_accept :
    regAndStatus .modinv 0x00 (operands 6 9) = some (1, 0x01) ∧
    regAndStatus (.wr 0x00 0x17) 0x00 { State.reset with cmd := 7 } = some (7, 0x28) ∧
    regAndStatus .gcd 0x00 { operands 9 9 with cmd := 1, done := true, err := true, ecode := some .eNotCoprime } =
      some (2, 0x69) := by decide

/-- 40_command_protocol.md R74, example: STATUS 0x6A becomes 0x00. -/
theorem test_ack :
    regAndStatus .ack 0x00 { State.reset with done := true, err := true, ecode := some .eNotCoprime } = some (7, 0x00) ∧
    regAndStatus .ack 0x00 (inFlight 1 State.reset) = some (1, 0x19) := by decide

/-- 2.1 rows 4, 9, 10, 12: the dropped writes. -/
theorem test_wr_dropped :
    regAndStatus (.wr 0x04 7) 0x04 (inFlight 1 (operands 6 9)) = some (6, 0x19) ∧
    regAndStatus (.wr 0x08 5) 0x08 State.reset = some (0, 0x38) ∧
    regAndStatus (.wr 0x09 1) 0x09 State.reset = some (0, 0x38) ∧
    regAndStatus (.wr 0x10 2) 0x10 { State.reset with keylock := true } = some (0, 0x48) := by decide

/-- 2.1 rows 11, 13: CTRL; and stored words at both ends of the banks. -/
theorem test_wr_stored :
    regAndStatus (.wr 0x02 0xFFFFFFFF) 0x02 State.reset = some (3, 0x00) ∧
    regAndStatus (.wr 0x02 0) 0x02 { State.reset with ie := true, keylock := true } = some (2, 0x00) ∧
    regAndStatus (.wr 0x17 9) 0x17 State.reset = some (9, 0x00) ∧
    regAndStatus (.wr 0x1F 0xFFFFFFFF) 0x1F State.reset = some (0xFFFFFFFF, 0x00) := by decide

/-- What `rdata` shows: 2.1 row 2, a bank element, STATUS. -/
theorem test_rd :
    exec (.rd 0x03) State.reset = .next State.reset ∧
    exec (.rd 0x13) (keyOne 0) = .next { keyOne 0 with rdata := 13 } ∧
    exec (.rd 0x1A) (keyOne 0) = .next { keyOne 0 with rdata := 258 } ∧
    exec (.rd 0x01) (inFlight 1 State.reset) = .next { inFlight 1 State.reset with rdata := 1 } := ⟨rfl, rfl, rfl, rfl⟩

/-- 2.1 row 5: a fault at completion does not replace the recorded E_BUSY. -/
theorem test_first_fault_kept :
    resAndStatus { inFlight 1 (operands 6 9) with err := true, ecode := some .eBusy } = some (0, 0x1A) := by decide +kernel

/-- 70_reset_and_hazards.md R172: a reset edge abandons the command in flight. -/
theorem test_reset_abandons :
    step { inFlight 1 (keyOne 43) with edges := [resetEdge] } = .next State.reset := rfl

/-- The first instruction after reset, placed as a table word. -/
theorem test_first_step :
    step (State.reset.withFetchWord 32 3) = exec .isprime State.reset ∧
    step (State.reset.withFetchWord 38 0x240000002B) = exec (.wr 0x04 43) State.reset ∧
    step (State.reset.withFetchWord 38 0x0100000000) = exec (.rd 0x01) State.reset := ⟨rfl, rfl, rfl⟩

/-! ### witnesses: the hypotheses of each statement, met together -/

/-- An edge that reads STATUS. -/
def readStatus (completes : Bool) : Edge := accessEdge { we := false, addr := 0x01, wdata := 0 } completes

/-- An edge that writes 5 to OPA. -/
def writeOpa (completes : Bool) : Edge := accessEdge { we := true, addr := 0x04, wdata := 5 } completes

theorem witness_DecodeOfEncode :
    (Instr.gdec : Instr).wf = true ∧ (Instr.wr 0x00 0 : Instr).wf = true ∧ (Instr.wr 0x00 8 : Instr).wf = true ∧
      (Instr.wr 0x1F 0xFFFFFFFF : Instr).wf = true ∧ (Instr.rd 0x1F : Instr).wf = true := by decide

theorem witness_DecodedBytesAreCanonical :
    readBytes [7, 0, 0, 0] = .ok .ack ∧ readBytes [7, 0, 0, 0, 0x20] = .ok .ack ∧
      readBytes [0xFF, 0xFF, 0xFF, 0xFF, 0x3F] = .ok (.wr 0x1F 0xFFFFFFFF) := by decide

/-- The three disjuncts apart, each at its boundary. -/
theorem witness_IllegalCommandWord :
    State.reset.busy = false ∧ 16 ≤ (0x11 : Word).toNat ∧ (0 : Word).toNat % 16 = 0 ∧ 8 ≤ (8 : Word).toNat % 16 ∧
      ¬(16 ≤ (7 : Word).toNat ∨ (7 : Word).toNat % 16 = 0 ∨ 8 ≤ (7 : Word).toNat % 16) := by decide

theorem witness_StepRunsDecodedInstruction :
    decodeTableWord 32 1 = some .modinv ∧ decodeTableWord 38 0x3F00000009 = some (.wr 0x1F 9) ∧
      (writeOpa true).rst = false ∧ (writeOpa true).sel = true := by decide

theorem witness_IdleCycleChangesNoRegister :
    (idleEdge true : Edge).rst = false ∧ (idleEdge true : Edge).sel = false ∧ State.reset.busy = false ∧
      (idleEdge false : Edge).sel = false ∧ (idleEdge false : Edge).completes = false ∧ (inFlight 1 State.reset).busy = true := by decide

/-- The case list on values at which it branches: CMD, the gap before OPA, RES, the last reserved index, both banks' ends. -/
theorem witness_HostWriteCases :
    afterWrite 0x03 1 State.reset = recorded .eAddr State.reset ∧ afterWrite 0x08 1 State.reset = recorded .eAddr State.reset ∧
    afterWrite 0x0F 1 State.reset = recorded .eAddr State.reset ∧
    afterWrite 0x10 1 { State.reset with keylock := true } = recorded .eLocked { State.reset with keylock := true } ∧
    (afterWrite 0x17 1 State.reset).priv[7] = 1 ∧ (afterWrite 0x18 1 State.reset).pub[0] = 1 := by decide

theorem witness_WriteThenReadDataRegister :
    State.reset.busy = false ∧ State.reset.keylock = false ∧ 0x10 ≤ (0x10 : Index).toNat ∧ 0x10 ≤ (0x1F : Index).toNat ∧
      { State.reset with keylock := true }.busy = false ∧ (0x05 : Index) ≠ 0x06 := by decide

/-- Bits 0 and 1 of the written word apart, and KEYLOCK = 1 across a step that is not a reset. -/
theorem witness_CtrlWriteAndLayout :
    State.reset.busy = false ∧ (2 : Word).getLsbD 0 = false ∧ (2 : Word).getLsbD 1 = true ∧
      ∃ t, step { State.reset with keylock := true } = .next t ∧ (nextEdge { State.reset with keylock := true }).rst = false :=
  ⟨rfl, rfl, rfl, _, rfl, rfl⟩

theorem witness_BusyWriteDropped :
    (inFlight 1 State.reset).busy = true ∧ (Instr.wr 0x1F 0 : Instr).access.we = true ∧ (Instr.ack : Instr).access.we = true := by decide

theorem witness_ReservedOrReadOnlyWrite :
    State.reset.busy = false ∧ 0x09 ≤ (0x09 : Index).toNat ∧ (0x0F : Index).toNat ≤ 0x0F ∧
      ¬(0x09 ≤ (0x10 : Index).toNat ∧ (0x10 : Index).toNat ≤ 0x0F) := by decide

theorem witness_LockedKeyWrite :
    { State.reset with keylock := true }.busy = false ∧ { State.reset with keylock := true }.keylock = true ∧
      0x10 ≤ (0x10 : Index).toNat ∧ 0x10 ≤ (0x1F : Index).toNat ∧ ¬0x10 ≤ (0x0F : Index).toNat := by decide

theorem witness_CommandWordAccepted :
    Computing (.gdec : Instr) ∧ (Instr.gdec : Instr).commandWord = some 6 ∧
    State.reset.busy = false ∧ afterCommandWord 6 State.reset = inFlight 6 State.reset ∧
      afterCommandWord 8 State.reset = recorded .eIllegalCmd State.reset ∧ (afterCommandWord 7 State.reset).cmd = 7 := by
  refine ⟨?_, by decide⟩
  simp [Computing]

theorem witness_AckClearsStatus :
    State.reset.busy = false ∧ (inFlight 1 State.reset).busy = true ∧ (0x17 : Word).toNat % 16 = 7 ∧
      16 ≤ (0x17 : Word).toNat ∧ State.reset.Inv ∧ State.reset.done = false ∧ State.reset.err = false := by decide

theorem witness_CompletionDeliversOutcome :
    (inFlight 1 (operands 43 421)).Inv ∧ (inFlight 1 (operands 43 421)).busy = true ∧ (inFlight 6 State.reset).Inv := by decide

theorem witness_ModinvComputesInverse :
    (operands 43 421).busy = false ∧ (operands 5 0).opb.toNat = 0 ∧ (operands 5 1).opb.toNat = 1 ∧
      2 ≤ (operands 0 2).opb.toNat ∧ Nat.gcd (operands 0 2).opa.toNat (operands 0 2).opb.toNat ≠ 1 ∧
      2 ≤ (operands 1 2).opb.toNat ∧ Nat.gcd (operands 1 2).opa.toNat (operands 1 2).opb.toNat = 1 := by decide

theorem witness_EuclideanRecursion : (18 : Nat) ≠ 0 ∧ ¬((48 : Nat) = 0 ∧ (0 : Nat) = 0) ∧ 3 ∣ 48 ∧ 3 ∣ 18 := by decide

theorem witness_GcdComputesGcd : (operands 0 0).busy = false ∧ (operands 48 18).busy = false := by decide

theorem witness_IsprimeByTrialDivision :
    (operands 4 0).busy = false ∧ (∃ d, 2 ≤ d ∧ d ≤ Nat.sqrt 4 ∧ 4 % d = 0) ∧ ¬∃ d, 2 ≤ d ∧ d ≤ Nat.sqrt 3 ∧ 3 % d = 0 := by
  refine ⟨rfl, ⟨2, by norm_num⟩, fun ⟨d, h2, h, _⟩ => ?_⟩
  norm_num at h
  omega

theorem witness_IsprimeDecidesPrimality :
    (operands 2 0).busy = false ∧ Nat.Prime (operands 2 0).opa.toNat ∧ ¬Nat.Prime (operands 1 0).opa.toNat :=
  ⟨rfl, Nat.prime_two, Nat.not_prime_one⟩

theorem witness_SupchkDecidesSuperincreasing :
    (keyOne 0).busy = false ∧ (∀ i : Fin 8, privSumBefore (keyOne 0) i < (keyOne 0).priv[i].toNat) ∧
      ¬(∀ i : Fin 8, privSumBefore State.reset i < State.reset.priv[i].toNat) := by decide +kernel

theorem witness_KsumSumsSelectedElements :
    (keyOne 255).busy = false ∧ 255 < (keyOne 256).opa.toNat ∧ (keyOne 255).opa.toNat ≤ 255 ∧
      selectedSum (keyOne 255) < 2 ^ Config.W ∧
      2 ^ Config.W ≤ selectedSum { State.reset with opa := 0xC0, pub := #v[0x80000000, 0x80000000, 0, 0, 0, 0, 0, 0] } := by
  decide +kernel

theorem witness_KsumOfSmallElementsFits :
    (keyOne 255).busy = false ∧ (keyOne 255).opa.toNat ≤ 255 ∧
      ∀ j : Fin 8, (keyOne 255).pub[j].toNat < 2 ^ (Config.W - 3) := by decide +kernel

theorem witness_GdecDecodesGreedily :
    (keyOne 318).busy = false ∧ State.reset.modulus.toNat = 0 ∧ (keyOne 318).modulus.toNat ≠ 0 := by decide

/-- Key K1 with its multiplier 43. -/
theorem witness_RoundTripOfOneByte :
    (keyOne 0x41).busy = false ∧ (∀ i : Fin 8, privSumBefore (keyOne 0x41) i < (keyOne 0x41).priv[i].toNat) ∧
      privSum (keyOne 0x41) < (keyOne 0x41).modulus.toNat ∧
      43 * (keyOne 0x41).invmult.toNat % (keyOne 0x41).modulus.toNat = 1 ∧
      (∀ j : Fin 8, (keyOne 0x41).pub[j].toNat = 43 * (keyOne 0x41).priv[j].toNat % (keyOne 0x41).modulus.toNat) ∧
      (keyOne 0x41).opa.toNat ≤ 255 ∧ selectedSum (keyOne 0x41) < 2 ^ Config.W := by decide +kernel

/-- A flight with a dropped write and a read in it. -/
theorem witness_OutcomeFixedAtAccept :
    (operands 6 9).busy = false ∧ Computing (.modinv : Instr) ∧ (Instr.modinv : Instr).commandWord = some 1 ∧
      NoReset [writeOpa false, readStatus false] ∧ (∀ e ∈ [writeOpa false, readStatus false], e.completes = false) ∧
      (idleEdge true : Edge).rst = false ∧ (idleEdge true : Edge).completes = true := by
  refine ⟨rfl, .inl rfl, rfl, ?_, ?_, rfl, rfl⟩ <;> simp [NoReset, writeOpa, readStatus, accessEdge]

/-- An edge at which the flight goes on, and one at which it ends. -/
theorem witness_RegistersStableInFlight :
    (inFlight 1 State.reset).busy = true ∧
      (∃ t, step { inFlight 1 State.reset with edges := [writeOpa false] } = .next t ∧ t.busy = true) ∧
      ∃ t, step { inFlight 1 State.reset with edges := [writeOpa true] } = .next t ∧ t.busy = false :=
  ⟨rfl, ⟨_, rfl, rfl⟩, ⟨_, rfl, rfl⟩⟩

theorem witness_EngineReadsOperandsWritesResult :
    (∃ t, completeInFlight (inFlight 2 (operands 48 18)) = .next t) ∧
      (operands 48 18).opa = { operands 48 18 with res := 1 }.opa ∧ (operands 48 18).opb = { operands 48 18 with res := 1 }.opb ∧
      (keyOne 1).priv = { keyOne 1 with done := true }.priv ∧ (keyOne 1).pub = { keyOne 1 with done := true }.pub ∧
      (keyOne 1).invmult = { keyOne 1 with done := true }.invmult ∧ (keyOne 1).modulus = { keyOne 1 with done := true }.modulus :=
  ⟨⟨_, rfl⟩, rfl, rfl, rfl, rfl, rfl, rfl⟩

/-- RES changes in a step: the completion of GCD on 48 and 18. -/
theorem witness_ResultOnlyAtCompletion :
    resAndStatus (inFlight 2 (operands 48 18)) = some (6, 0x02) ∧ (nextEdge (inFlight 2 (operands 48 18))).rst = false ∧
      (inFlight 2 (operands 48 18)).res = 0 := by decide +kernel

theorem witness_StepKeepsInv :
    (inFlight 1 State.reset).Inv ∧ (∃ t, step (inFlight 1 State.reset) = .next t) ∧ ∃ t, step State.reset = .next t :=
  ⟨by decide, ⟨_, rfl⟩, ⟨_, rfl⟩⟩

theorem witness_BlockNeverStops : (inFlight 5 State.reset).Inv ∧ State.reset.Inv := by decide

/-- A locked state with a key write coming; and a reset edge. -/
theorem witness_KeyMaterialLockedUntilReset :
    { keyOne 0 with keylock := true }.keylock = true ∧ NoReset ((keyOne 0).edges.take 1) ∧
      (∃ t, run 1 { keyOne 0 with keylock := true } = .next t) ∧
      (nextEdge { keyOne 0 with edges := [resetEdge] }).rst = true ∧
      ∃ t, step { keyOne 0 with edges := [resetEdge] } = .next t := by
  refine ⟨rfl, ?_, ⟨_, rfl⟩, rfl, ⟨_, rfl⟩⟩
  simp [NoReset, keyOne, State.reset, allZero]

/-- The three clauses: an ACK edge; a fault already held; no fault held, with and without one raised. -/
theorem witness_FirstFaultKept :
    acksAt { State.reset with edges := [accessEdge { we := true, addr := 0, wdata := 7 } false] } = true ∧
      { State.reset with err := true, ecode := some .eAddr }.Inv ∧
      acksAt { State.reset with err := true, ecode := some .eAddr } = false ∧
      State.reset.Inv ∧ acksAt State.reset = false ∧ State.reset.err = false ∧ raisedAt State.reset = [] ∧
      raisedAt { inFlight 1 State.reset with edges := [writeOpa true] } = [.eBusy, .eZeroMod] ∧
      (nextEdge { inFlight 1 State.reset with edges := [writeOpa true] }).rst = false := by decide

/-- MODINV with modulus 0 faults, with modulus 1 gives a result. -/
theorem witness_WriteSharesEdgeWithCompletion :
    (inFlight 1 State.reset).Inv ∧ (inFlight 1 State.reset).err = false ∧ (writeOpa true).rst = false ∧
      (writeOpa true).sel = true ∧ (writeOpa true).we = true ∧ (writeOpa true).completes = true ∧
      outcomeOf (opField (inFlight 1 State.reset).cmd) (inFlight 1 State.reset) = some (.fault .eZeroMod) ∧
      outcomeOf (opField (inFlight 1 (operands 5 1)).cmd) (inFlight 1 (operands 5 1)) = some (.result 0 false) := by decide

theorem witness_ResetOverridesAll :
    (resetEdge : Edge).rst = true ∧ { readStatus true with rst := true }.sel = true ∧ { readStatus true with rst := true }.we = false := by
  decide

theorem witness_InterruptLine :
    (inFlight 1 State.reset).Inv ∧ (inFlight 1 State.reset).busy = true ∧ (nextEdge (inFlight 1 State.reset)).rst = false ∧
      (nextEdge (inFlight 1 State.reset)).completes = true ∧ { State.reset with done := true, ie := true }.busy = false ∧
      (2 : Word).getLsbD 0 = false := by decide

theorem witness_EveryFlightEnds :
    { inFlight 1 State.reset with edges := [writeOpa false, readStatus false] }.Inv ∧
      { inFlight 1 State.reset with edges := [writeOpa false, readStatus false] }.busy = true ∧
      NoReset [writeOpa false, readStatus false] := by
  refine ⟨by decide, rfl, ?_⟩
  simp [NoReset, writeOpa, readStatus, accessEdge]

/-- A run that writes OPA, raises no fault and ends in a next state. -/
theorem witness_SafeRunRecordsNothing :
    { State.reset with edges := [writeOpa false] }.Inv ∧ SafeRun 1 { State.reset with edges := [writeOpa false] } ∧
      ∃ t, run 1 { State.reset with edges := [writeOpa false] } = .next t :=
  ⟨by decide, ⟨by decide, _, rfl, trivial⟩, ⟨_, rfl⟩⟩

/-- The three clauses: an idle block; a WAIT that has ended; a schedule with a completing and a polling cycle. -/
theorem witness_WaitEndsWithBusyClear :
    State.reset.busy = false ∧ State.reset.Inv ∧
      (∃ t, runProgram [⟨false, true⟩] [.wait] State.reset = .next { state := t, todo := [] }) ∧
      (inFlight 3 (operands 91 0)).Inv ∧ (inFlight 3 (operands 91 0)).busy = true ∧
      ({ idle := true, completes := true } : Slot).completes = true ∧ ({ idle := false, completes := false } : Slot).idle = false :=
  ⟨rfl, by decide, ⟨_, rfl⟩, by decide, rfl, rfl, rfl⟩

theorem witness_PseudoInstructionsExpand :
    (operands 1 1).busy = false ∧ (operands 1 1).keylock = false ∧ (operands 1 1).Inv ∧
      8 ≤ ((List.replicate 8 ({ idle := false, completes := true } : Slot)).filter fun x => !x.idle).length ∧
      1 ≤ ([({ idle := true, completes := false } : Slot), { idle := false, completes := false }].filter
        fun x => !x.idle).length := by decide

/-- A WAIT that ends, and two records of which the engine completes at the second. -/
theorem witness_HostProgramIsRunOfEdges :
    (∃ q, runProgram [⟨false, false⟩] [.wait] State.reset = .next q) ∧
      ∃ t, run 2 { State.reset with
        edges := [(Instr.gcd, false), (Instr.rd 0x01, true)].map fun r => accessEdge r.1.access r.2 } = .next t :=
  ⟨⟨_, rfl⟩, ⟨_, rfl⟩⟩

/-- The last word read and the things still to do after a host program under a schedule. -/
def shownAndLeft (slots : List Slot) (p : List HostLine) (s : State) : Option (Nat × Nat) :=
  match runProgram slots p s with
  | .next q => some (q.state.rdata.toNat, q.todo.length)
  | .fault _ => none
  | .refused _ => none

/-- P3 of 95_test_vectors.md, its first RD STATUS after MODINV of 6 modulo 9: 0x01 before the engine completes, 0x6A after. -/
theorem test_both_schedules :
    shownAndLeft [⟨false, false⟩] [.access (.rd 0x01)] (inFlight 1 (operands 6 9)) = some (0x01, 0) ∧
    shownAndLeft [⟨true, true⟩, ⟨false, false⟩] [.access (.rd 0x01)] (inFlight 1 (operands 6 9)) = some (0x6A, 0) := by
  decide +kernel

/-- 30_encoding.md R67: WAIT with BUSY = 0 is one read; while BUSY = 1 it polls on. -/
theorem test_wait_reads :
    shownAndLeft [⟨false, false⟩] [.wait] { operands 6 9 with done := true } = some (0x02, 0) ∧
    shownAndLeft [⟨false, false⟩] [.wait] (inFlight 1 (operands 6 9)) = some (0x01, 1) ∧
    shownAndLeft [⟨false, true⟩, ⟨false, false⟩] [.wait] (inFlight 1 (operands 6 9)) = some (0x6A, 0) := by decide +kernel

theorem witness_EngineMayCompleteBetweenRecords : State.reset.busy = false ∧ Computing (.ksum : Instr) :=
  ⟨rfl, by simp [Computing]⟩

/-! ### other widths (00_scope.md R5) -/

/-- At W = 17 both formats decode: the command word 1, and the 23-bit record `1 00100 43`; a bit above the width is refused. -/
theorem test_decode_other_width :
    (decode [1, 0, 0] : Except (DecodeError 17) (Instr 17)) = .ok .modinv ∧
    (decode [0x2B, 0, 0x48, 0] : Except (DecodeError 17) (Instr 17)) = .ok (.wr 0x04 43) ∧
    (decode [1, 0, 2] : Except (DecodeError 17) (Instr 17)) = .error (.paddingNotZero 0x20001) := by decide

/-- At W = 16 a sum of exactly `2^16` overflows and one below it fits (43_transcoder.md R121). -/
theorem test_ksum_other_width :
    outcomeOf 5 { (allZero : State 16) with opa := 0xC0, pub := #v[0x8000, 0x8000, 0, 0, 0, 0, 0, 0] } =
      some (.fault .eOverflow) ∧
    outcomeOf 5 { (allZero : State 16) with opa := 0xC0, pub := #v[0x8000, 0x7FFF, 0, 0, 0, 0, 0, 0] } =
      some (.result 0xFFFF false) := by decide +kernel

/-- The least width the spec allows, and one that is no whole number of bytes. -/
theorem witness_allowed_widths : Config.WidthAllowed 16 ∧ Config.WidthAllowed 17 ∧ Config.WidthAllowed 32 := by decide

/-- A write and a read, both premises on the completion. -/
theorem witness_PortAccessAtEveryWidth :
    (accessEdge { we := true, addr := 0x1F, wdata := 9 } true : Edge 17).rst = false ∧
      (accessEdge { we := true, addr := 0x1F, wdata := 9 } true : Edge 17).sel = true ∧ (allZero : State 17).busy = false ∧
      (accessEdge { we := false, addr := 0, wdata := 0 } false : Edge 17).completes = false := by decide

theorem witness_CommandAtEveryWidth :
    (allZero : State 17).busy = false ∧ Computing (.gdec : Instr 17) ∧ (Instr.gdec : Instr 17).commandWord = some 6 ∧
      (idleEdge true : Edge 17).rst = false ∧ (idleEdge true : Edge 17).sel = false ∧
      (idleEdge true : Edge 17).completes = true := by
  refine ⟨rfl, ?_, rfl, rfl, rfl, rfl⟩
  simp [Computing]

/-- Operands at which each clause of an outcome applies. -/
theorem witness_OutcomesAtEveryWidth :
    (allZero : State 16).opb.toNat = 0 ∧ { (allZero : State 16) with opb := 1 }.opb.toNat = 1 ∧
      2 ≤ { (allZero : State 16) with opb := 2 }.opb.toNat ∧ Nat.gcd 0 2 ≠ 1 ∧ Nat.gcd 1 2 = 1 ∧
      Nat.Prime { (allZero : State 16) with opa := 2 }.opa.toNat ∧ ¬Nat.Prime (allZero : State 16).opa.toNat ∧
      (∀ i : Fin 8, privSumBefore { (allZero : State 16) with priv := #v[1, 2, 4, 8, 16, 32, 64, 128] } i <
        { (allZero : State 16) with priv := #v[1, 2, 4, 8, 16, 32, 64, 128] }.priv[i].toNat) ∧
      ¬(∀ i : Fin 8, privSumBefore (allZero : State 16) i < (allZero : State 16).priv[i].toNat) ∧
      (allZero : State 16).modulus.toNat = 0 ∧ { (allZero : State 16) with modulus := 1 }.modulus.toNat ≠ 0 :=
  ⟨rfl, rfl, by decide, by decide, by decide, Nat.prime_two, Nat.not_prime_zero, by decide +kernel, by decide +kernel, rfl,
    by decide⟩

theorem witness_StepKeepsInvAtEveryWidth :
    { (allZero : State 17) with cmd := 1, busy := true }.Inv ∧
      ∃ t, stepAt { (allZero : State 17) with cmd := 1, busy := true } = .next t :=
  ⟨by decide, ⟨_, rfl⟩⟩

end Sys2Proof.Tests
end

section
/-! SUPPORT. The block at every width (00_scope.md R5, R6): what the words of the statements mean in the model's operations,
what one listed edge answers, and the statements about every width. -/

namespace Sys2Proof.Machine

open Sys2Proof.Claims

variable {W : Nat}

/-! ### the statements' words and the model's operations -/

/-- The record a fault leaves, said by the statements and by the model alike (60_exceptions.md R147). -/
theorem raise_eq_recorded (c : FaultCode) (s : State W) : raise c s = recorded c s := by
  obtain ⟨_, _, _, _, err⟩ := s
  cases err <;> rfl

/-- The reserved indices by their numbers (20_memory.md R45). -/
theorem regOf_eq_none_iff (idx : Index) :
    regOf idx = none ↔ idx = 0x03 ∨ (0x09 ≤ idx.toNat ∧ idx.toNat ≤ 0x0F) := by
  decide +revert

/-- At a register's index the index map of the statements shows that register (20_memory.md R42). -/
theorem portView_index (r : Reg) (s : State W) : portView r.index s = s.get r := by
  cases r with
  | priv j | pub j => fin_cases j <;> rfl
  | _ => rfl

/-- At a reserved index the index map of the statements shows 0 (20_memory.md R45). -/
theorem portView_reserved (idx : Index) (s : State W) (h : regOf idx = none) : portView idx s = 0 := by
  have listed : ∀ i : Index, regOf i = none → i ≠ 0x00 ∧ i ≠ 0x01 ∧ i ≠ 0x02 ∧ i ≠ 0x04 ∧ i ≠ 0x05 ∧ i ≠ 0x06 ∧
      i ≠ 0x07 ∧ i ≠ 0x08 ∧ i.toNat < 0x10 := by decide
  obtain ⟨h0, h1, h2, h4, h5, h6, h7, h8, hlt⟩ := listed idx h
  have notPriv : ¬(0x10 ≤ idx.toNat ∧ idx.toNat < 0x18) := by omega
  have notPub : ¬0x18 ≤ idx.toNat := by omega
  simp only [portView, h0, h1, h2, h4, h5, h6, h7, h8, notPriv, notPub, if_false, dif_neg, not_false_eq_true]

/-- What the port shows is what the index map of the statements says (20_memory.md R42, R43, R45). -/
theorem regRead_eq_portView (idx : Index) (s : State W) : regRead idx s = portView idx s := by
  cases hr : regOf idx with
  | none => rw [portView_reserved idx s hr, regRead, hr]
  | some r => rw [← index_of_regOf idx r hr, regRead_index, portView_index]

/-- The three cases of a command word (40_command_protocol.md R70). -/
theorem issue_eq_afterCommandWord (v : Word W) (s : State W) : issue v s = afterCommandWord v s := by
  unfold afterCommandWord
  rcases issue_cases v s with ⟨low, high, accepted⟩ | ⟨seven, acked⟩ | ⟨illegal, raised⟩
  · rw [accepted, if_neg (by omega), if_neg (by omega)]; rfl
  · rw [acked, if_neg (by omega), if_pos seven]; rfl
  · rw [raised, if_pos (by omega), raise_eq_recorded]

/-- The statements' six cases of a write, at a register's index (20_memory.md R44). -/
theorem afterWrite_index (r : Reg) (v : Word W) (s : State W) (hb : s.busy = false) : afterWrite r.index v s =
    if r.readOnly then recorded .eAddr s
    else if r.lockable && s.keylock then recorded .eLocked s
    else if r = .cmd then afterCommandWord v s
    else if r = .ctrl then writeCtrl v s
    else s.put r v := by
  obtain ⟨_, busy, _, _, _, _, _, keylock⟩ := s
  obtain rfl : busy = false := hb
  cases keylock <;> cases r with
  | priv j | pub j => fin_cases j <;> rfl
  | _ => rfl

/-- A host write is the statements' six ordered cases (20_memory.md R44). -/
theorem hostWrite_eq_afterWrite (idx : Index) (v : Word W) (s : State W) : hostWrite idx v s = afterWrite idx v s := by
  cases hb : s.busy with
  | true => rw [hostWrite_busy idx v s hb, raise_eq_recorded, afterWrite, if_pos hb]
  | false =>
    cases hr : regOf idx with
    | none =>
      have reserved : idx = 0x01 ∨ idx = 0x03 ∨ (0x08 ≤ idx.toNat ∧ idx.toNat ≤ 0x0F) := by
        rcases (regOf_eq_none_iff idx).1 hr with h | h
        · exact .inr (.inl h)
        · exact .inr (.inr (by omega))
      have written : hostWrite idx v s = raise .eAddr s := by simp [hostWrite, hb, hr]
      rw [written, raise_eq_recorded, afterWrite, if_neg (by simp [hb]), if_pos reserved]
    | some r =>
      rw [← index_of_regOf idx r hr, afterWrite_index r v s hb]
      simp only [hostWrite, hb, regOf_index, raise_eq_recorded, issue_eq_afterCommandWord, Bool.false_eq_true, if_false]
      cases r <;> rfl

/-! ### an edge taken off the list -/

/-- The host's part of an edge does not end a command in flight (40_command_protocol.md R72). -/
theorem hostCycle_keeps_busy (e : Edge W) (s : State W) (hb : s.busy = true) : (hostCycle e s).busy = true := by
  rw [hostCycle_busy e s hb]
  cases e.sel && e.we
  · exact hb
  · exact (raise_busy _ _).trans hb

/-- The outcome of a command in flight is that of the registers before the edge, whatever the host does at it
(40_command_protocol.md R72). -/
theorem outcomeOf_hostCycle (e : Edge W) (s : State W) (hb : s.busy = true) :
    outcomeOf (opField (hostCycle e s).cmd) (hostCycle e s) = outcomeOf (opField s.cmd) s := by
  rw [hostCycle_busy e s hb]
  cases e.sel && e.we
  · rfl
  · have hc : (raise .eBusy s).cmd = s.cmd := raise_cmd _ _
    simp only [if_true, hc]
    exact outcomeOf_congr _ _ _ (by simp) (by simp) (by simp) (by simp) (by simp) (by simp)

/-- Without a completion the engine's part of an edge does nothing (40_command_protocol.md R72). -/
theorem enginePart_of_no_completion (e : Edge W) (busy : Bool) (s : State W) (h : (busy && e.completes) = false) :
    enginePart e busy s = .next s := by
  rw [enginePart, h]
  rfl

/-- At a completion the engine's part of an edge delivers the outcome (40_command_protocol.md R73). -/
theorem enginePart_of_completion (e : Edge W) (busy : Bool) (s : State W) (o : CmdOutcome) (hb : busy = true)
    (hc : e.completes = true) (ho : outcomeOf (opField s.cmd) s = some o) : enginePart e busy s = .next (finish o s) := by
  rw [enginePart, hb, hc, completeInFlight, ho]
  rfl

/-- A listed edge with neither a reset nor a completion is the host's part alone (20_memory.md R41, R54). -/
theorem stepAt_of_no_completion (e : Edge W) (rest : List (Edge W)) (s : State W) (hr : e.rst = false)
    (h : s.busy = false ∨ e.completes = false) :
    stepAt { s with edges := e :: rest } = .next { hostCycle e s with edges := rest } := by
  have noReset : (nextEdge { s with edges := e :: rest }).rst = false := hr
  have quiet : (s.busy && e.completes) = false := by
    rcases h with h | h <;> simp [h]
  rw [stepAt_eq _ noReset, ← hostCycle_edges]
  exact enginePart_of_no_completion e s.busy _ quiet

/-- A listed edge at which the command in flight completes is the host's part and then the outcome (20_memory.md R54;
40_command_protocol.md R73). -/
theorem stepAt_of_completion (e : Edge W) (rest : List (Edge W)) (s : State W) (o : CmdOutcome) (hr : e.rst = false)
    (hb : s.busy = true) (hc : e.completes = true) (ho : outcomeOf (opField s.cmd) s = some o) :
    stepAt { s with edges := e :: rest } = .next { finish o (hostCycle e s) with edges := rest } := by
  have noReset : (nextEdge { s with edges := e :: rest }).rst = false := hr
  have same : outcomeOf (opField (hostCycle e { s with edges := rest }).cmd) (hostCycle e { s with edges := rest }) =
      some o := (outcomeOf_hostCycle e { s with edges := rest } hb).trans ho
  rw [stepAt_eq _ noReset, ← finish_edges_comm, ← hostCycle_edges]
  exact enginePart_of_completion e s.busy _ o hb hc same

/-- Settles O48: the access of an edge runs as its decoded instruction, which is the port cycle of that access. -/
theorem stepIsTheBlockAtDefaultWidth : Obligations.StepIsTheBlockAtDefaultWidth := step_eq_stepAt

/-- Settles O49: the edge is the host's part alone, and that is the write of the six cases or the read of the index map. -/
theorem portAccessAtEveryWidth : Obligations.PortAccessAtEveryWidth := by
  intro W _ s e rest hr hs hq
  rw [stepAt_of_no_completion e rest s hr hq, hostCycle_eq, if_pos hs]
  cases e.we with
  | true => simp [writeCycle, showRdata, hostWrite_eq_afterWrite]
  | false => simp [readCycle, showRdata, regRead_eq_portView]

/-! ### the invariant at every width -/

/-- A reset edge answers a state that meets the invariant (10_state.md R25). -/
theorem resetCycle_inv (e : Edge W) (s : State W) : (resetCycle e s).Inv := by
  simp [State.Inv, resetCycle, allZero]

/-- Settles O52: a step is a reset, the host's part, or the host's part and a completion, and each keeps the invariant. -/
theorem stepKeepsInvAtEveryWidth : Obligations.StepKeepsInvAtEveryWidth := by
  intro W _ s t hs h
  have host : (hostCycle (nextEdge s) (dropEdge s)).Inv := hostCycle_inv _ _ hs
  rcases stepAt_cases s t h with ⟨-, rfl⟩ | ⟨-, -, rfl⟩ | ⟨-, hb, -, o, -, rfl⟩
  · exact resetCycle_inv _ _
  · exact host
  · exact finish_inv o _ host (hostCycle_keeps_busy _ _ hb)

/-! ### a computing command is accepted and completes -/

/-- An access that writes a command's word to CMD is that command's access (30_encoding.md R66). -/
theorem access_of_commandWord (i : Instr W) (v : Word W) (h : i.commandWord = some v) :
    i.access = { we := true, addr := 0, wdata := v } := by
  cases i <;> cases h <;> rfl

/-- The opcodes of the computing commands (30_encoding.md R62). -/
theorem computing_commandWord_range (hW : Config.WidthAllowed W) (i : Instr W) (v : Word W) (hc : Computing i)
    (hv : i.commandWord = some v) : 1 ≤ v.toNat ∧ v.toNat ≤ 6 := by
  have small : ∀ n, n < 8 → n % 2 ^ W = n := fun n hn =>
    Nat.mod_eq_of_lt (lt_of_lt_of_le (lt_trans hn (by decide)) (Nat.pow_le_pow_right (by decide) hW))
  rcases hc with rfl | rfl | rfl | rfl | rfl | rfl <;> cases hv <;> simp [small]

/-- With BUSY = 0 the word of a computing command written to CMD is accepted (40_command_protocol.md R70). -/
theorem hostWrite_cmd_accept (v : Word W) (s : State W) (hb : s.busy = false) (hv : 1 ≤ v.toNat ∧ v.toNat ≤ 6) :
    hostWrite 0 v s = accept v s := by
  have cmd : hostWrite 0 v s = issue v s := by rw [hostWrite, hb]; rfl
  rw [cmd, issue_eq, if_pos hv]

/-- Each opcode from 1 to 6 has an outcome on every state (40_command_protocol.md R76). -/
theorem outcomeOf_isSome_of_range (v : Word W) (s : State W) (hv : 1 ≤ v.toNat ∧ v.toNat ≤ 6) :
    ∃ o, outcomeOf (opField v) s = some o := by
  have inv : (accept v (acknowledge v s)).Inv := ⟨by simp, by simp, by simp; omega, by simpa using hv⟩
  exact outcomeOf_isSome _ inv rfl

/-- Completion with a result, after the accept edge (40_command_protocol.md R70, R73). -/
theorem finish_result_accept (v : Word W) (r : Nat) (f : Bool) (s : State W) :
    finish (.result r f) (idleCycle (accept v s)) = completed v (BitVec.ofNat W r) f s := rfl

/-- Completion with a fault, after the accept edge (40_command_protocol.md R70, R73; 60_exceptions.md R146). -/
theorem finish_fault_accept (v : Word W) (c : FaultCode) (s : State W) :
    finish (.fault c) (idleCycle (accept v s)) = faulted v c s := by
  simp only [finish, deliver, raise_eq_recorded]
  rfl

/-- Settles O50: the write is accepted, so the command is in flight with the operands as they were, and the completing edge
delivers the outcome they give. -/
theorem commandAtEveryWidth : Obligations.CommandAtEveryWidth := by
  intro W hW s i v hb hi hv e rest hr hs hc
  have range := computing_commandWord_range hW i v hi hv
  obtain ⟨o, ho⟩ := outcomeOf_isSome_of_range v s range
  have accepted : stepAt { s with edges := accessEdge i.access false :: e :: rest } =
      .next { showRdata 0 (accept v s) with edges := e :: rest } := by
    rw [stepAt_of_no_completion _ _ s rfl (.inl hb), access_of_commandWord i v hv]
    show Host.Outcome.next { showRdata 0 (hostWrite 0 v s) with edges := e :: rest } = _
    rw [hostWrite_cmd_accept v s hb range]
  have delivered : stepAt { showRdata 0 (accept v s) with edges := e :: rest } =
      .next { finish o (idleCycle (accept v s)) with edges := rest } := by
    rw [stepAt_of_completion e rest (showRdata 0 (accept v s)) o hr rfl hc ho, hostCycle_eq, hs]
    rfl
  refine ⟨o, _, ho, accepted, rfl, ?_⟩
  cases o with
  | result r f => exact ⟨outcomeOf_fits hW _ s r f ho, by rw [delivered, finish_result_accept]⟩
  | fault c => exact show stepAt _ = _ by rw [delivered, finish_fault_accept]

/-! ### the outcomes in exact arithmetic -/

/-- The primality tester answers the mathematical definition of a prime (41_number_theory.md R90). -/
theorem isPrime_iff_prime (n : Nat) : isPrime n = true ↔ Nat.Prime n := by
  have divisors : hasTrialDivisor n = true ↔ ∃ d, 2 ≤ d ∧ d ≤ Nat.sqrt n ∧ d ∣ n := by
    simp only [hasTrialDivisor_iff, isqrt_eq_sqrt, Nat.dvd_iff_mod_eq_zero]
  have tester : isPrime n = true ↔ 2 ≤ n ∧ ¬hasTrialDivisor n = true := by
    by_cases small : n ≤ 1
    · have : ¬2 ≤ n := by omega
      simp [isPrime, small, this]
    · have : 2 ≤ n := by omega
      simp [isPrime, small, this]
  simp only [tester, divisors, Nat.prime_def_le_sqrt, not_exists, not_and]

/-- The validator decides that every PRIV element exceeds the exact sum of those before it (42_superincreasing.md R110). -/
theorem superincreasing_iff (s : State W) :
    superincreasing s.priv = true ↔ ∀ i : Fin 8, privSumBefore s i < s.priv[i].toNat := by
  simp [superincreasing, superincreasingFrom, elementNumbers, element, privSumBefore, Fin.forall_fin_succ,
    Fin.sum_univ_eight]

/-- The summer's value is the sum of the PUB elements that the bits of OPA select (43_transcoder.md R120). -/
theorem ksum_eq_selectedSum (s : State W) : ksum s.opa.toNat s.pub = selectedSum s := by
  rw [ksum_eq_sum]
  refine Finset.sum_congr rfl fun j _ => ?_
  show s.pub[j].toNat * (s.opa.getLsbD (7 - j.val)).toNat = _
  cases s.opa.getLsbD (7 - j.val) <;> simp

/-- A byte written as its weighted bits has those bits (20_memory.md R50). -/
theorem testBit_weightedBits (f : Fin 8 → Bool) (j : Fin 8) :
    (∑ k : Fin 8, (f k).toNat * positionWeight k).testBit (7 - j.val) = f j := by
  have bit : ∀ k, f k = decide ((f k).toNat = 1) := fun k => by cases f k <;> rfl
  have le : ∀ k, (f k).toNat ≤ 1 := fun k => Bool.toNat_le _
  have := le 0; have := le 1; have := le 2; have := le 3
  have := le 4; have := le 5; have := le 6; have := le 7
  rw [Nat.testBit_eq_decide_div_mod_eq, bit j, Fin.sum_univ_eight]
  refine decide_eq_decide.2 ?_
  fin_cases j <;> simp [positionWeight, -Bool.toNat_eq_one] <;> omega

/-- The outcome of MODINV (41_number_theory.md R95), the inverse by its defining equation. -/
theorem modinvOutcome_eq (a m : Nat) :
    (m = 0 → modinvOutcome a m = .fault .eZeroMod) ∧
    (m = 1 → modinvOutcome a m = .result 0 false) ∧
    (2 ≤ m → Nat.gcd a m ≠ 1 → modinvOutcome a m = .fault .eNotCoprime) ∧
    (2 ≤ m → Nat.gcd a m = 1 → ∃ x, x < m ∧ a * x % m = 1 ∧ modinvOutcome a m = .result x false) := by
  refine ⟨?zero, ?one, fun hm hg => ?common, fun hm hg => ?coprime⟩
  case zero => rintro rfl; rfl
  case one => rintro rfl; rfl
  all_goals
    have h0 : m ≠ 0 := by omega
    have h1 : m ≠ 1 := by omega
  case common => simp [modinvOutcome, h0, h1, euclidGcd_eq_gcd, hg]
  case coprime =>
    obtain ⟨lt, inverse⟩ := modinv_spec a m (by omega) hg
    rw [Nat.mod_eq_of_lt hm] at inverse
    exact ⟨modinv a m, lt, inverse, by simp [modinvOutcome, h0, h1, euclidGcd_eq_gcd, hg, flagModinv]⟩

/-- The outcome of GDEC (43_transcoder.md R122, R123): the greedy byte bit by bit, and whether the residual is 0. -/
theorem gdecOutcome_greedy (c m q : Nat) (p : Bank W) (hq : q ≠ 0) :
    ∃ byte, (∀ j : Fin 8, byte.testBit (7 - j.val) = greedyBit p (c * m % q) j) ∧ byte < 256 ∧
      gdecOutcome c m q p = .result byte (greedyRest p (c * m % q) 0 == 0) := by
  refine ⟨(greedyDecode c m q p).1, fun j => ?_, greedyDecode_byte_lt c m q p, ?_⟩
  · rw [greedyDecode_eq, testBit_weightedBits]
  · simp [gdecOutcome, hq, greedyDecode_eq, flagGdec]

/-- Settles O51: each command's outcome function computes what its rule says, on operands of any width. -/
theorem outcomesAtEveryWidth : Obligations.OutcomesAtEveryWidth := by
  intro W _ s
  refine ⟨?modinv, ?gcd, ?isprime, ?supchk, ?ksum, ?gdec⟩
  case modinv =>
    have outcome : outcomeOf 1 s = some (modinvOutcome s.opa.toNat s.opb.toNat) := rfl
    simpa only [outcome, Option.some.injEq] using modinvOutcome_eq s.opa.toNat s.opb.toNat
  case gcd =>
    show some (gcdOutcome s.opa.toNat s.opb.toNat) = _
    rw [gcdOutcome, euclidGcd_eq_gcd, flagGcd]
  case isprime =>
    have outcome : outcomeOf 3 s = some (isprimeOutcome s.opa.toNat) := rfl
    rw [outcome, isprimeOutcome, flagIsprime, ← isPrime_iff_prime]
    cases isPrime s.opa.toNat <;> simp
  case supchk =>
    have outcome : outcomeOf 4 s = some (supchkOutcome s.priv) := rfl
    rw [outcome, supchkOutcome, flagSupchk, ← superincreasing_iff]
    cases superincreasing s.priv <;> simp
  case ksum =>
    show some (ksumOutcome s.opa.toNat s.pub) = _
    rw [ksumOutcome, ksum_eq_selectedSum, flagKsum]
  case gdec =>
    refine ⟨fun hq => ?zero, fun hq => ?greedy⟩
    case zero =>
      show some (gdecOutcome s.opa.toNat s.invmult.toNat s.modulus.toNat s.priv) = _
      rw [gdecOutcome, if_pos hq]
    case greedy =>
      obtain ⟨byte, bits, lt, outcome⟩ := gdecOutcome_greedy s.opa.toNat s.invmult.toNat s.modulus.toNat s.priv hq
      exact ⟨greedyRest s.priv _, byte, greedyRest_eight _ _, greedyRest_fin _ _, bits, lt, congrArg some outcome⟩

end Sys2Proof.Machine
end

section
/-! SUPPORT. The registers and fields of the block (10_state.md): their values after reset, STATUS and CTRL as words, and who
may change what. -/

namespace Sys2Proof.Machine

open Sys2Proof.Claims

variable {W : Nat}

/-! ### after reset -/

/-- After reset every register of the index map reads 0 (10_state.md R25). -/
theorem allZero_get (r : Reg) : (allZero : State W).get r = 0 := by
  cases r with
  | status => simp [State.get, statusWord, allZero, ecodeBits]
  | ctrl => simp [State.get, ctrlWord, allZero]
  | priv j | pub j => simp [State.get, allZero]
  | _ => rfl

/-- After reset every index shows 0 (10_state.md R25; 20_memory.md R45). -/
theorem portView_allZero (idx : Index) : portView idx (allZero : State W) = 0 := by
  cases hr : regOf idx with
  | none => exact portView_reserved idx _ hr
  | some r => rw [← index_of_regOf idx r hr, portView_index, allZero_get]

/-- Settles O35: the registers after reset are those a reset edge leaves. -/
theorem resetMeetsInv : Obligations.ResetMeetsInv := resetCycle_inv resetEdge State.reset

/-- Settles O41: each field is 0 by its definition, and with the fields the word at each index. -/
theorem resetRegistersReadZero : Obligations.ResetRegistersReadZero := by
  have banks : ∀ j : Fin 8, State.reset.priv[j] = 0 ∧ State.reset.pub[j] = 0 :=
    fun j => ⟨allZero_get (.priv j), allZero_get (.pub j)⟩
  exact ⟨portView_allZero, rfl, rfl, rfl, rfl, rfl, rfl, rfl, rfl, rfl, rfl, rfl, rfl, rfl, rfl, banks⟩

/-! ### STATUS and CTRL -/

/-- The four flags of STATUS stand at bits 0 to 3, at every width that holds them (10_state.md R13). -/
theorem statusWord_flags (hW : Config.WidthAllowed W) (s : State W) :
    (statusWord s).getLsbD 0 = s.busy ∧ (statusWord s).getLsbD 1 = s.done ∧ (statusWord s).getLsbD 2 = s.flag ∧
      (statusWord s).getLsbD 3 = s.err := by
  have inside : ∀ k, k < 4 → k < W := fun k hk => by omega
  simp only [statusWord, BitVec.getLsbD_setWidth, BitVec.getLsbD_append, BitVec.getLsbD_ofBool]
  simp [inside]

/-- ECODE stands at bits 7:4 of STATUS (10_state.md R13). -/
theorem statusWord_ecode (hW : Config.WidthAllowed W) (s : State W) :
    (statusWord s).extractLsb' 4 4 = ecodeBits s.ecode := by
  refine BitVec.eq_of_getLsbD_eq fun i hi => ?_
  have inside : 4 + i < W := by omega
  have pastFlags : ¬4 + i < 1 ∧ ¬4 + i - 1 < 1 ∧ ¬4 + i - 1 - 1 < 1 ∧ ¬4 + i - 1 - 1 - 1 < 1 := by omega
  have offset : 4 + i - 1 - 1 - 1 - 1 = i := by omega
  simp only [statusWord, BitVec.getLsbD_extractLsb', BitVec.getLsbD_setWidth, BitVec.getLsbD_append, inside, pastFlags,
    offset, hi, decide_true, Bool.true_and, if_false]

/-- The bits of STATUS above ECODE are 0 (10_state.md R13). -/
theorem statusWord_above (s : State W) (k : Nat) (hk : 8 ≤ k) : (statusWord s).getLsbD k = false := by
  rw [statusWord, BitVec.getLsbD_setWidth, BitVec.getLsbD_of_ge _ _ hk, Bool.and_false]

/-- IE and KEYLOCK stand at bits 0 and 1 of CTRL (10_state.md R18). -/
theorem ctrlWord_fields (hW : Config.WidthAllowed W) (s : State W) :
    (ctrlWord s).getLsbD 0 = s.ie ∧ (ctrlWord s).getLsbD 1 = s.keylock := by
  have inside : ∀ k, k < 2 → k < W := fun k hk => by omega
  simp only [ctrlWord, BitVec.getLsbD_setWidth, BitVec.getLsbD_append, BitVec.getLsbD_ofBool]
  simp [inside]

/-- The bits of CTRL above KEYLOCK are 0 (10_state.md R18). -/
theorem ctrlWord_above (s : State W) (k : Nat) (hk : 2 ≤ k) : (ctrlWord s).getLsbD k = false := by
  rw [ctrlWord, BitVec.getLsbD_setWidth, BitVec.getLsbD_of_ge _ _ hk, Bool.and_false]

/-- WR is the host's write, and `rdata` shows 0 in its cycle (20_memory.md R41, R44). -/
theorem exec_wr (idx : Index) (v : Word) (s : State) : exec (.wr idx v) s = .next { hostWrite idx v s with rdata := 0 } :=
  rfl

/-- A write to STATUS only records a fault (20_memory.md R46; 60_exceptions.md R142, R144). -/
theorem hostWrite_status (v : Word W) (s : State W) :
    hostWrite 0x01 v s = recorded (if s.busy then .eBusy else .eAddr) s := by
  rw [← raise_eq_recorded, hostWrite]
  cases s.busy <;> rfl

/-- With BUSY = 0 a write to CTRL is done, locked or not (10_state.md R18). -/
theorem hostWrite_ctrl (v : Word W) (s : State W) (hb : s.busy = false) : hostWrite 0x02 v s = writeCtrl v s := by
  rw [hostWrite, hb]
  rfl

/-- Settles O10: the fields of the word, the numbers of the codes by their table, and the fault a write records. -/
theorem statusLayout : Obligations.StatusLayout := by
  refine ⟨fun W hW s => ?layout, ⟨rfl, rfl, rfl, rfl, rfl, rfl, rfl, rfl, rfl⟩, fun s v => ?written,
    portView_allZero 0x01⟩
  case layout =>
    obtain ⟨busy, done, flag, err⟩ := statusWord_flags hW s
    exact ⟨busy, done, flag, err, statusWord_ecode hW s, statusWord_above s⟩
  case written => rw [exec_wr, hostWrite_status]

/-- With KEYLOCK set the host's part of an edge touches neither KEYLOCK nor the key material (60_exceptions.md R145). -/
theorem hostCycle_locked (e : Edge W) (s : State W) (h : s.keylock = true) :
    (hostCycle e s).keylock = true ∧ (hostCycle e s).modulus = s.modulus ∧ (hostCycle e s).invmult = s.invmult ∧
      (hostCycle e s).priv = s.priv ∧ (hostCycle e s).pub = s.pub := by
  rw [hostCycle_eq]
  split_ifs
  · exact hostWrite_locked e.addr e.wdata s h
  all_goals exact ⟨h, rfl, rfl, rfl, rfl⟩

/-- Only a reset clears KEYLOCK (10_state.md R18). -/
theorem step_keeps_keylock (s t : State) (h : step s = .next t) (hr : (nextEdge s).rst = false)
    (hk : s.keylock = true) : t.keylock = true := by
  obtain ⟨host, -⟩ := hostCycle_locked (nextEdge s) (dropEdge s) hk
  rcases step_cases s t h with ⟨reset, -⟩ | ⟨-, -, rfl⟩ | ⟨-, -, -, o, -, rfl⟩
  · cases hr.symm.trans reset
  · exact host
  · exact (finish_keylock o _).trans host

/-- Settles O13: the write is that of CTRL, its read shows the two fields, and no part of an edge but reset clears KEYLOCK. -/
theorem ctrlWriteAndLayout : Obligations.CtrlWriteAndLayout := by
  refine ⟨fun s v hb => ?written, fun W hW s => ?layout, step_keeps_keylock, rfl, rfl⟩
  case written => rw [exec_wr, hostWrite_ctrl v s hb, writeCtrl]
  case layout =>
    obtain ⟨ie, keylock⟩ := ctrlWord_fields hW s
    exact ⟨ie, keylock, ctrlWord_above s⟩

/-! ### the engine -/

/-- A completion that answers a next state delivers an outcome (40_command_protocol.md R73, R76). -/
theorem completeInFlight_next (s t : State W) (h : completeInFlight s = .next t) :
    ∃ o, outcomeOf (opField s.cmd) s = some o ∧ t = finish o s := by
  unfold completeInFlight at h
  cases ho : outcomeOf (opField s.cmd) s with
  | none => rw [ho] at h; cases h
  | some o => rw [ho] at h; cases h; exact ⟨o, rfl, rfl⟩

/-- Settles O32: a completion delivers its outcome and nothing else, and each outcome is a function of the registers the
command reads. -/
theorem engineReadsOperandsWritesResult : Obligations.EngineReadsOperandsWritesResult := by
  refine ⟨fun W s t h => ?writes, fun W s s' => ⟨?binary, ?isprime, ?supchk, ?ksum, ?gdec⟩⟩
  case writes =>
    obtain ⟨o, -, rfl⟩ := completeInFlight_next s t h
    simp
  case binary => exact fun ha hb => by simp [outcomeOf, ha, hb]
  case isprime => exact fun ha => by simp [outcomeOf, ha]
  case supchk => exact fun hp => by simp [outcomeOf, hp]
  case ksum => exact fun ha hp => by simp [outcomeOf, ha, hp]
  case gdec => exact fun ha hi hm hp => by simp [outcomeOf, ha, hi, hm, hp]

/-- A fault leaves RES and FLAG as they were (40_command_protocol.md R73). -/
theorem finish_fault_frame (c : FaultCode) (s : State W) :
    (finish (.fault c) s).res = s.res ∧ (finish (.fault c) s).flag = s.flag := by
  simp [deliver]

/-- A result that fits the register is held by RES as it is, and FLAG is its flag (40_command_protocol.md R73). -/
theorem finish_result (r : Nat) (f : Bool) (s : State W) (hr : r < 2 ^ W) :
    (finish (.result r f) s).res.toNat = r ∧ (finish (.result r f) s).flag = f := by
  simp [deliver, Nat.mod_eq_of_lt hr]

/-- Settles O33: neither the host nor a fault writes RES or FLAG, so a change is a delivered result. -/
theorem resultOnlyAtCompletion : Obligations.ResultOnlyAtCompletion := by
  intro s t h hr changed
  obtain ⟨hostRes, hostFlag, -⟩ := hostCycle_frame (nextEdge s) (dropEdge s)
  rcases step_cases s t h with ⟨reset, -⟩ | ⟨-, -, rfl⟩ | ⟨-, hb, hc, o, ho, rfl⟩
  · cases hr.symm.trans reset
  · exact changed.elim (absurd hostRes) (absurd hostFlag)
  · have outcome : outcomeOf (opField s.cmd) s = some o := (outcomeOf_hostCycle _ (dropEdge s) hb).symm.trans ho
    cases o with
    | result r f =>
      exact ⟨hb, hc, r, f, outcome, finish_result r f _ (outcomeOf_fits Config.default_width_allowed _ s r f outcome)⟩
    | fault c =>
      obtain ⟨faultRes, faultFlag⟩ := finish_fault_frame c (hostCycle (nextEdge s) (dropEdge s))
      exact changed.elim (absurd (faultRes.trans hostRes)) (absurd (faultFlag.trans hostFlag))

end Sys2Proof.Machine
end

section
/-! SUPPORT. The register port (20_memory.md): the step as the decoded instruction, cycles without an access, reads, and writes
read back. -/

namespace Sys2Proof.Machine

open Sys2Proof.Claims

variable {W : Nat}

/-! ### the step and the decoded instruction -/

/-- A word of at most `k` bytes does not depend on the higher bytes of a number (log 9). -/
theorem ofNat_mod_bytes {n k : Nat} (h : n ≤ 8 * k) (w : Nat) : BitVec.ofNat n (w % 256 ^ k) = BitVec.ofNat n w := by
  have whole : 2 ^ n ∣ 256 ^ k := by
    rw [show (256 : Nat) = 2 ^ 8 by rfl, ← pow_mul]
    exact pow_dvd_pow 2 h
  exact BitVec.eq_of_toNat_eq (by simp only [BitVec.toNat_ofNat, Nat.mod_mod_of_dvd w whole])

/-- A table word that decodes is the access of its instruction: a command word written to CMD, or the record's access
(30_encoding.md R60, R65, R66). -/
theorem decodeAccess_accessOfTableWord (nbits w : Nat) (i : Instr) (h : decodeTableWord nbits w = some i) :
    decodeAccess (accessOfTableWord nbits w) = i := by
  have decoded : decode (bytesOfNat ((nbits + 7) / 8) w) = .ok i := by
    unfold decodeTableWord at h
    split at h
    · rwa [← Option.some.inj h]
    · cases h
  rw [decode, bytesOfNat_length, natOfBytes_bytesOfNat] at decoded
  rw [accessOfTableWord]
  generalize (nbits + 7) / 8 = k at decoded ⊢
  split_ifs at decoded with command _ record _
  · rw [ofNat_mod_bytes (by rw [command]; decide)] at decoded
    rw [if_pos command.le]
    cases hd : decodeCommand (BitVec.ofNat Config.W w) with
    | none => rw [hd] at decoded; cases decoded
    | some c => rw [hd] at decoded; cases decoded; simp [decodeAccess, hd]
  · rw [ofNat_mod_bytes (by rw [record]; decide), decodeRecord] at decoded
    rw [if_neg (record ▸ Nat.not_succ_le_self _)]
    split_ifs at decoded
    exact Except.ok.inj decoded

/-- A listed edge with an access and no reset runs the instruction of the access, then the engine's part (20_memory.md R54). -/
theorem step_access (s : State) (e : Edge) (rest : List Edge) (hr : e.rst = false) (hs : e.sel = true) :
    step { s with edges := e :: rest } =
      andThen (exec (decodeAccess e.access) { s with edges := rest }) (enginePart e s.busy) := by
  show clockEdge hostPart e { s with edges := rest } = _
  rw [clockEdge, if_neg (by simp [hr]), hostPart, if_pos hs]

/-- Settles O7: the placed edge makes the access that decodes to the instruction and has no completion, and an edge with an
access is the decoded instruction and then the engine's part. -/
theorem stepRunsDecodedInstruction : Obligations.StepRunsDecodedInstruction := by
  refine ⟨fun s nbits w i hi => ?placed, step_access⟩
  have placed := drive_quiet (accessEdge (accessOfTableWord nbits w) false) false s rfl (Bool.and_false _)
  calc step (s.withFetchWord nbits w)
      = .next (portCycle (accessOfTableWord nbits w) s) := placed
    _ = exec (decodeAccess (accessOfTableWord nbits w)) s := (exec_decodeAccess _ s).symm
    _ = exec i s := by rw [decodeAccess_accessOfTableWord nbits w i hi]

/-- Settles O8: the edge is the host's part alone, and that is an idle cycle. -/
theorem idleCycleChangesNoRegister : Obligations.IdleCycleChangesNoRegister := by
  intro s e rest hr hs hq
  rw [step_eq_stepAt, stepAt_of_no_completion e rest s hr hq, hostCycle_eq, if_neg (by simp [hs])]
  rfl

/-! ### reads and writes -/

/-- RD shows what the index map says and changes no register (20_memory.md R43, R45). -/
theorem exec_rd (idx : Index) (s : State) : exec (.rd idx) s = .next { s with rdata := portView idx s } := by
  rw [← regRead_eq_portView]
  rfl

/-- What the port shows does not depend on what `rdata` showed before (20_memory.md R41). -/
theorem portView_rdata (idx : Index) (v : Word W) (s : State W) : portView idx { s with rdata := v } = portView idx s := rfl

/-- Settles O9: a read shows the index map's word, and what the first read left on `rdata` is no part of it. -/
theorem readShowsRegister : Obligations.ReadShowsRegister :=
  fun s idx => ⟨exec_rd idx s, exec_rd idx { s with rdata := portView idx s }⟩

/-- Settles O11: a write cycle is the host's write, which is the six ordered cases. -/
theorem hostWriteCases : Obligations.HostWriteCases := fun s idx v => by
  rw [exec_wr, hostWrite_eq_afterWrite]

/-- The registers that hold a whole word a host write stores (20_memory.md R44, case 6). -/
def Reg.isData : Reg → Bool
  | .opa | .opb | .modulus | .invmult | .priv _ | .pub _ => true
  | .cmd | .status | .ctrl | .res => false

/-- A stored word is the register's value (20_memory.md R47). -/
theorem get_put_same (s : State W) (r : Reg) (v : Word W) (hd : r.isData = true) : (s.put r v).get r = v := by
  cases r with
  | opa | opb | modulus | invmult => rfl
  | priv j | pub j => simp [State.put, State.get]
  | cmd | status | ctrl | res => cases hd

/-- Storing a word in a register leaves every other register as it was (20_memory.md R44). -/
theorem get_put_other (s : State W) (r q : Reg) (v : Word W) (hne : q ≠ r) : (s.put r v).get q = s.get q := by
  cases r with
  | priv j =>
    cases q with
    | priv k => exact Vector.getElem_set_ne j.isLt k.isLt fun same => hne (congrArg Reg.priv (Fin.ext same.symm))
    | _ => rfl
  | pub j =>
    cases q with
    | pub k => exact Vector.getElem_set_ne j.isLt k.isLt fun same => hne (congrArg Reg.pub (Fin.ext same.symm))
    | _ => rfl
  | opa | opb | modulus | invmult => cases q <;> first | rfl | exact absurd rfl hne
  | cmd | status | ctrl | res => rfl

/-- With BUSY = 0 a word written to a data register that is not locked is stored (20_memory.md R44, case 6). -/
theorem hostWrite_data (r : Reg) (v : Word W) (s : State W) (hb : s.busy = false) (hd : r.isData = true)
    (hl : (r.lockable && s.keylock) = false) : hostWrite r.index v s = s.put r v := by
  simp only [hostWrite, hb, regOf_index, hl, Bool.false_eq_true, if_false]
  cases r with
  | cmd | status | ctrl | res => cases hd
  | _ => rfl

/-- The indices of a write that is read back are those of the data registers not locked, `k` being KEYLOCK (20_memory.md R42;
60_exceptions.md R145). -/
theorem exists_data_register (idx : Index) (k : Bool)
    (h : idx = 0x04 ∨ idx = 0x05 ∨ (k = false ∧ (idx = 0x06 ∨ idx = 0x07 ∨ 0x10 ≤ idx.toNat))) :
    ∃ r : Reg, r.index = idx ∧ r.isData = true ∧ (r.lockable && k) = false := by
  have writable : (regOf idx).any (fun r => r.isData && !(r.lockable && k)) = true := by decide +revert
  obtain ⟨r, hr, hw⟩ := Option.any_eq_true _ _ |>.1 writable
  rw [Bool.and_eq_true, Bool.not_eq_true'] at hw
  exact ⟨r, index_of_regOf idx r hr, hw⟩

/-- Storing a word in a register leaves what every other index shows (20_memory.md R44). -/
theorem portView_put_other (s : State W) (r : Reg) (v : Word W) (idx : Index) (hne : idx ≠ r.index) :
    portView idx (s.put r v) = portView idx s := by
  cases hq : regOf idx with
  | none => rw [portView_reserved idx _ hq, portView_reserved idx _ hq]
  | some q =>
    obtain rfl := index_of_regOf idx q hq
    rw [portView_index, portView_index, get_put_other s r q v (fun same => hne (congrArg Reg.index same))]

/-- Settles O12: the index is that of a data register not locked, so the write stores the word there and nowhere else. -/
theorem writeThenReadDataRegister : Obligations.WriteThenReadDataRegister := by
  intro s idx v hb hidx
  obtain ⟨r, rfl, hd, hl⟩ := exists_data_register idx s.keylock hidx
  have stored : hostWrite r.index v s = s.put r v := hostWrite_data r v s hb hd hl
  obtain ⟨-, -, -, edges⟩ := hostWrite_frame r.index v s
  refine ⟨{ s.put r v with rdata := 0 }, ?written, ?readBack, stored ▸ edges, fun other hne => ?others⟩
  case written => rw [exec_wr, stored]
  case readBack => rw [exec_rd, portView_rdata, portView_index, get_put_same s r v hd]
  case others => rw [portView_rdata, portView_put_other s r v other hne]

end Sys2Proof.Machine
end

section
/-! SUPPORT. Decoding and encoding (30_encoding.md R60 to R66; log 9, log 10): a transaction record and its access, the two byte
formats, and that each well-formed instruction has its own spellings and no others. -/

namespace Sys2Proof

open Sys2Proof.Machine Sys2Proof.Claims

variable {W : Nat}

/-! ### the transaction record -/

/-- The bits of a transaction record (30_encoding.md R65). -/
theorem packRecord_getLsbD (a : Access W) (k : Nat) (hk : k < W + 6) : (packRecord a).getLsbD k =
    if k < W then a.wdata.getLsbD k else if k < W + 5 then a.addr.getLsbD (k - W) else a.we := by
  simp only [packRecord, BitVec.getLsbD_setWidth, BitVec.getLsbD_append, hk, decide_true, Bool.true_and]
  split_ifs with word low index top
  · rfl
  · rfl
  · omega
  · omega
  · rw [show k - W - 5 = 0 by omega, BitVec.getLsbD_ofBool]; simp

theorem packRecord_we (a : Access W) : (packRecord a).getLsbD (W + 5) = a.we := by
  rw [packRecord_getLsbD a _ (by omega), if_neg (by omega), if_neg (by omega)]

theorem packRecord_addr (a : Access W) : (packRecord a).extractLsb' W 5 = a.addr := by
  refine BitVec.eq_of_getLsbD_eq fun k hk => ?_
  rw [BitVec.getLsbD_extractLsb', packRecord_getLsbD a _ (by omega), if_neg (by omega), if_pos (by omega),
    Nat.add_sub_cancel_left, decide_eq_true hk, Bool.true_and]

theorem packRecord_wdata (a : Access W) : (packRecord a).extractLsb' 0 W = a.wdata := by
  refine BitVec.eq_of_getLsbD_eq fun k hk => ?_
  rw [BitVec.getLsbD_extractLsb', packRecord_getLsbD a _ (by omega), if_pos (by omega), Nat.zero_add, decide_eq_true hk,
    Bool.true_and]

/-- A record unpacks to the access it was packed from (30_encoding.md R65). -/
@[simp] theorem unpackRecord_packRecord (a : Access W) : unpackRecord (packRecord a) = a := by
  rw [unpackRecord, packRecord_we, packRecord_addr, packRecord_wdata]

/-- Every record is that of the access it unpacks to: its W+6 bits are all fields (30_encoding.md R65). -/
@[simp] theorem packRecord_unpackRecord (r : BitVec (W + 6)) : packRecord (unpackRecord r) = r := by
  refine BitVec.eq_of_getLsbD_eq fun k hk => ?_
  rw [packRecord_getLsbD _ k hk]
  simp only [unpackRecord, BitVec.getLsbD_extractLsb']
  split_ifs with word index
  · simp [word]
  · rw [show W + (k - W) = k by omega, decide_eq_true (by omega), Bool.true_and]
  · rw [show k = W + 5 by omega]

/-- Settles O2: each field is read off the record's bits, and the rule's examples are computed. -/
theorem transactionRecordLayout : Obligations.TransactionRecordLayout :=
  ⟨fun _ a => ⟨packRecord_we a, packRecord_addr a, packRecord_wdata a, unpackRecord_packRecord a⟩,
    by decide, by decide, by decide⟩

/-! ### command words -/

/-- The numbers of the opcode map and its sample illegal words fit a word of every allowed width (00_scope.md R5). -/
theorem word_toNat_of_lt (hW : Config.WidthAllowed W) {n : Nat} (hn : n < 2 ^ 16) : (BitVec.ofNat W n).toNat = n := by
  rw [BitVec.toNat_ofNat, Nat.mod_eq_of_lt (lt_of_lt_of_le hn (Nat.pow_le_pow_right (by decide) hW))]

/-- A word with an opcode of the map and no other bit set decodes by the map (30_encoding.md R61, R62). -/
theorem decodeCommand_ofNat (hW : Config.WidthAllowed W) {n : Nat} (h1 : 1 ≤ n) (h7 : n ≤ 7) :
    decodeCommand (BitVec.ofNat W n) = instrOfOpcode (BitVec.ofNat 4 n) := by
  have number : (BitVec.ofNat W n).toNat = n := word_toNat_of_lt hW (by omega)
  have opcode : opField (BitVec.ofNat W n) = BitVec.ofNat 4 n :=
    BitVec.eq_of_toNat_eq (by rw [opField_toNat, number, BitVec.toNat_ofNat])
  rw [decodeCommand, if_pos ((legalCommand_iff _).2 (by omega)), opcode]

/-- A command's own word decodes to it (30_encoding.md R62). -/
theorem decodeCommand_commandWord (hW : Config.WidthAllowed W) (i : Instr W) (v : Word W) (h : i.commandWord = some v) :
    decodeCommand v = some i := by
  cases i with
  | wr | rd => cases h
  | _ => cases h; exact decodeCommand_ofNat hW (by decide) (by decide)

/-- Settles O1: each command's word decodes to it, and the sample words are 0 or above 7. -/
theorem opcodeMapWordsDecode : Obligations.OpcodeMapWordsDecode := by
  refine ⟨fun W hW => ?_, by decide, by decide, by decide⟩
  have legal := decodeCommand_commandWord hW
  have illegal : ∀ n, n < 2 ^ 16 → n = 0 ∨ 8 ≤ n → decodeCommand (BitVec.ofNat W n) = none := fun n fits hn => by
    rw [decodeCommand_eq_none_iff, word_toNat_of_lt hW fits]; exact hn
  exact ⟨legal .modinv _ rfl, legal .gcd _ rfl, legal .isprime _ rfl, legal .supchk _ rfl, legal .ksum _ rfl,
    legal .gdec _ rfl, legal .ack _ rfl, illegal 0x0 (by decide) (by decide), illegal 0x8 (by decide) (by decide),
    illegal 0xF (by decide) (by decide), illegal 0x17 (by decide) (by decide)⟩

/-- Settles O5: the two descriptions of the illegal numbers agree, and the write is the first case of a command word. -/
theorem illegalCommandWord : Obligations.IllegalCommandWord := by
  refine ⟨fun W v => ?words, fun s v hb illegal => ?written⟩
  case words => rw [decodeCommand_eq_none_iff]; omega
  case written =>
    have cmd : hostWrite 0x00 v s = issue v s := by rw [hostWrite, hb]; rfl
    rw [exec_wr, cmd, issue_eq_afterCommandWord, afterCommandWord, if_pos illegal]

/-- Settles O6: the execution of a command is by definition the write cycle of its word at index 0x00. -/
theorem commandIsWriteToCmd : Obligations.CommandIsWriteToCmd := fun _ => ⟨rfl, rfl, rfl, rfl, rfl, rfl, rfl⟩

/-! ### accesses and instructions -/

/-- A write is in its one spelling when it is no command (30_encoding.md R66). -/
theorem wf_wr_iff (addr : Index) (wdata : Word W) :
    (Instr.wr addr wdata).wf = true ↔ (addr = 0 → decodeCommand wdata = none) := by
  simp [Instr.wf, decodeCommand_eq_none_iff, imp_iff_not_or, Nat.lt_iff_add_one_le]

/-- The access of a well-formed instruction stands for that instruction, at every width (30_encoding.md R66). -/
theorem decodeAccess_access_of_wf (hW : Config.WidthAllowed W) (i : Instr W) (hi : i.wf = true) :
    decodeAccess i.access = i := by
  cases hc : i.commandWord with
  | some v => rw [access_of_commandWord i v hc]; simp [decodeAccess, decodeCommand_commandWord hW i v hc]
  | none =>
    cases i with
    | rd addr => rfl
    | wr addr wdata =>
      show (if addr = 0 then (decodeCommand wdata).getD (.wr addr wdata) else .wr addr wdata) = _
      split_ifs with cmd
      · rw [(wf_wr_iff addr wdata).1 hi cmd]; rfl
      · rfl
    | _ => cases hc

/-- An access stands for a well-formed instruction: a write of a legal command word to CMD is spelled as the command
(30_encoding.md R66). -/
theorem decodeAccess_wf (a : Access W) : (decodeAccess a).wf = true := by
  unfold decodeAccess
  split_ifs with write cmd
  · cases hd : decodeCommand a.wdata with
    | some i => exact (decodeCommand_word _ i hd).2
    | none => exact (wf_wr_iff _ _).2 fun _ => hd
  · exact (wf_wr_iff _ _).2 fun ha => absurd ha cmd
  · rfl

/-- A record that is not refused is the record of the well-formed instruction it decodes to (30_encoding.md R65; log 10). -/
theorem decodeRecord_ok (r : BitVec (W + 6)) (i : Instr W) (h : decodeRecord r = .ok i) :
    i.wf = true ∧ packRecord i.access = r := by
  have accepted : ¬(!(unpackRecord r).we && (unpackRecord r).wdata != 0) = true := fun refused => by
    rw [decodeRecord, if_pos refused] at h; cases h
  rw [decodeRecord, if_neg accepted] at h
  obtain rfl := Except.ok.inj h
  refine ⟨decodeAccess_wf _, ?_⟩
  have same : (decodeAccess (unpackRecord r)).access = unpackRecord r := by
    rw [decodeAccess_access]
    generalize unpackRecord r = a at accepted ⊢
    obtain ⟨we, addr, wdata⟩ := a
    cases we with
    | true => rfl
    | false =>
      obtain rfl : wdata = 0 := by simpa using accepted
      rfl
  rw [same, packRecord_unpackRecord]

/-- The record of a well-formed instruction decodes to it (30_encoding.md R65, R66). -/
theorem decodeRecord_packRecord (hW : Config.WidthAllowed W) (i : Instr W) (hi : i.wf = true) :
    decodeRecord (packRecord i.access) = .ok i := by
  have accepted : (!i.access.we && i.access.wdata != 0) = false := by cases i <;> simp [Instr.access]
  rw [decodeRecord, unpackRecord_packRecord, accepted, decodeAccess_access_of_wf hW i hi]
  rfl

/-! ### the two byte formats -/

/-- A number of at most `8 * k` bits is that of its `k` bytes (log 9). -/
theorem natOfBytes_bytesOfNat_toNat {n k : Nat} (hk : n ≤ 8 * k) (v : BitVec n) :
    natOfBytes (bytesOfNat k v.toNat) = v.toNat := by
  have room : 2 ^ n ≤ 256 ^ k := by
    rw [show (256 : Nat) = 2 ^ 8 by rfl, ← pow_mul]
    exact Nat.pow_le_pow_right (by decide) hk
  rw [natOfBytes_bytesOfNat, Nat.mod_eq_of_lt (lt_of_lt_of_le v.isLt room)]

/-- The bytes of a command word decode to its command (30_encoding.md R60). -/
theorem decode_commandBytes (v : Word W) (i : Instr W) (h : decodeCommand v = some i) :
    decode (bytesOfNat (commandBytes W) v.toNat) = .ok i := by
  rw [decode, if_pos (bytesOfNat_length _ _), natOfBytes_bytesOfNat_toNat (by unfold commandBytes; omega), if_pos v.isLt,
    BitVec.ofNat_toNat, BitVec.setWidth_eq, h]

/-- The bytes of a record decode as the record (30_encoding.md R60, R65). -/
theorem decode_recordBytes (r : BitVec (W + 6)) : decode (bytesOfNat (recordBytes W) r.toNat) = decodeRecord r := by
  rw [decode, if_neg (by simp), if_pos (bytesOfNat_length _ _),
    natOfBytes_bytesOfNat_toNat (by unfold recordBytes commandBytes; omega), if_pos r.isLt, BitVec.ofNat_toNat,
    BitVec.setWidth_eq]

/-- Settles O3: a command's word decodes to it, a record unpacks to its access, and the access of a well-formed instruction
stands for it. -/
theorem decodeOfEncode : Obligations.DecodeOfEncode := by
  intro W hW i hi
  have record : decode (encodeRecord i) = .ok i := by
    rw [encodeRecord, decode_recordBytes, decodeRecord_packRecord hW i hi]
  refine ⟨?_, record⟩
  rw [encode]
  cases hc : i.commandWord with
  | some v => exact decode_commandBytes v i (decodeCommand_commandWord hW i v hc)
  | none => exact record

/-- Bytes whose number fits `n` bits are the bytes of the `n`-bit word of that number (log 9). -/
theorem bytesOfNat_ofNat_natOfBytes {n : Nat} (bs : List Byte) (fits : natOfBytes bs < 2 ^ n) :
    bytesOfNat bs.length (BitVec.ofNat n (natOfBytes bs)).toNat = bs := by
  rw [BitVec.toNat_ofNat, Nat.mod_eq_of_lt fits, bytesOfNat_natOfBytes]

/-- Bytes that decode are those of a command word or those of a record (30_encoding.md R60). -/
theorem decode_ok (bs : List Byte) (i : Instr W) (h : decode bs = .ok i) :
    (∃ v : Word W, decodeCommand v = some i ∧ bs = bytesOfNat (commandBytes W) v.toNat) ∨
    (∃ r : BitVec (W + 6), decodeRecord r = .ok i ∧ bs = bytesOfNat (recordBytes W) r.toNat) := by
  unfold decode at h
  split_ifs at h with command fits record fits
  · refine .inl ⟨_, ?_, command ▸ (bytesOfNat_ofNat_natOfBytes bs fits).symm⟩
    cases hd : decodeCommand (BitVec.ofNat W (natOfBytes bs)) with
    | some c => rw [hd] at h; cases h; rfl
    | none => rw [hd] at h; cases h
  · exact .inr ⟨_, h, record ▸ (bytesOfNat_ofNat_natOfBytes bs fits).symm⟩

/-- Settles O4: a word that decodes is its command's own, and a record that decodes is the packed access of its instruction. -/
theorem decodedBytesAreCanonical : Obligations.DecodedBytesAreCanonical := by
  intro W _ bs i h
  rcases decode_ok bs i h with ⟨v, hv, rfl⟩ | ⟨r, hr, rfl⟩
  · obtain ⟨word, wf⟩ := decodeCommand_word v i hv
    exact ⟨wf, .inl (by rw [encode, word])⟩
  · obtain ⟨wf, packed⟩ := decodeRecord_ok r i hr
    exact ⟨wf, .inr (by rw [encodeRecord, packed])⟩

end Sys2Proof
end

section
/-! SUPPORT. Host programs under a schedule (30_encoding.md R65 to R67): a program as a run of edges, cycles without a write while
a command may complete, WAIT, the loads of the banks, LOCK and RESET. -/

namespace Sys2Proof.Machine

open Sys2Proof.Claims

variable {W : Nat}

/-! ### a program is a run of edges -/

/-- Going on from an answer reaches a state only through a next state. -/
theorem andThen_next {α β : Type} (o : Host.Outcome α Fault Refusal) (f : α → Host.Outcome β Fault Refusal) (b : β)
    (h : andThen o f = .next b) : ∃ a, o = .next a ∧ f a = .next b := by
  cases o with
  | next a => exact ⟨a, rfl, h⟩
  | fault | refused => cases h

/-- A cycle of a host program is a listed edge of a run, and the cycles after it are the edges after it (20_memory.md R51). -/
theorem run_of_drive (e : Edge) (c : Bool) (es : List Edge) (s t u : State) (hd : drive e c s = .next t)
    (hr : run es.length { t with edges := es ++ t.edges } = .next u) :
    run (es.length + 1) { s with edges := { e with completes := c } :: es ++ s.edges } = .next u := by
  obtain ⟨kept, stepped⟩ := step_other_edges s t { e with completes := c } s.edges (es ++ s.edges) hd
  exact (run_succ_of_step _ _ _ stepped).trans (kept ▸ hr)

/-- Each cycle that a program uses is one edge, with the schedule's engine choice. -/
theorem play_is_run (slots : List Slot) : ∀ (ops : List HostOp) (s : State) (q : Progress), play slots ops s = .next q →
    ∃ es : List Edge, es.length ≤ slots.length ∧
      es.map (fun e => e.completes) = (slots.take es.length).map (fun x => x.completes) ∧
      run es.length { s with edges := es ++ s.edges } = .next q.state := by
  induction slots with
  | nil => intro ops s q h; cases h; exact ⟨[], le_rfl, rfl, rfl⟩
  | cons slot slots ih =>
    intro ops s q h
    cases ops with
    | nil => cases h; exact ⟨[], Nat.zero_le _, rfl, rfl⟩
    | cons op ops =>
      have cycle : ∃ (e : Edge) (t : State) (ops' : List HostOp), drive e slot.completes s = .next t ∧
          play slots ops' t = .next q := by
        rw [play_slot] at h
        split_ifs at h
        · obtain ⟨t, hd, ht⟩ := andThen_next _ _ _ h
          exact ⟨_, t, _, hd, ht⟩
        · obtain ⟨t, hd, ht⟩ := andThen_next _ _ _ h
          exact ⟨_, t, _, hd, ht⟩
      obtain ⟨e, t, ops', hd, ht⟩ := cycle
      obtain ⟨es, hlen, hmap, hrun⟩ := ih ops' t q ht
      exact ⟨{ e with completes := slot.completes } :: es, Nat.succ_le_succ hlen, congrArg (slot.completes :: ·) hmap,
        run_of_drive e slot.completes es s t q.state hd hrun⟩

/-- A run over the accesses of a list of records is the program of these records, each in its own cycle. -/
theorem run_is_program (records : List (Instr × Bool)) : ∀ s t : State,
    run records.length { s with edges := (records.map fun r => accessEdge r.1.access r.2) ++ s.edges } = .next t →
    runProgram (records.map fun r => { idle := false, completes := r.2 }) (records.map fun r => .access r.1) s =
      .next { state := t, todo := [] } := by
  induction records with
  | nil => intro s t h; cases h; rfl
  | cons r records ih =>
    intro s t h
    obtain ⟨u, stepped, ran⟩ := andThen_next _ _ _ h
    obtain ⟨listed, driven⟩ := step_other_edges s u (accessEdge r.1.access r.2)
      ((records.map fun r => accessEdge r.1.access r.2) ++ s.edges) s.edges stepped
    have cycle : drive (accessEdge r.1.access false) r.2 s = .next { u with edges := s.edges } := driven
    show andThen (drive (accessEdge r.1.access false) r.2 s) _ = _
    rw [cycle]
    exact ih { u with edges := s.edges } t (listed ▸ ran)

/-- Settles O53: a program uses up its schedule cycle by cycle, and each cycle and each record is one edge. -/
theorem hostProgramIsRunOfEdges : Obligations.HostProgramIsRunOfEdges :=
  ⟨fun slots p => play_is_run slots (p.flatMap HostLine.expand), run_is_program⟩

/-! ### a cycle without a write -/

/-- A command in flight has an outcome (40_command_protocol.md R76). -/
def State.CanComplete (s : State W) : Prop := s.busy = true → ∃ o, outcomeOf (opField s.cmd) s = some o

theorem State.Inv.canComplete {s : State W} (h : s.Inv) : s.CanComplete := outcomeOf_isSome s h

/-- What a cycle without a write leads to, `c` being the engine's choice at its edge: a command in flight completes or stays in
flight (20_memory.md R41; 40_command_protocol.md R72, R73). -/
structure AfterRead (e : Edge) (c : Bool) (s t : State) : Prop where
  canComplete : t.CanComplete
  rdata : t.rdata = portRdata e s
  busy : t.busy = (s.busy && !c)
  done : t.done = (s.done || (s.busy && c))
  edges : t.edges = s.edges

/-- The host's part of a cycle without a write shows a word and changes no register (20_memory.md R43). -/
theorem hostCycle_read (e : Edge W) (s : State W) (hw : e.we = false) : hostCycle e s = { s with rdata := portRdata e s } := by
  rw [hostCycle_eq, portRdata, hw]
  cases e.sel <;> rfl

/-- The read that a poll makes is that of STATUS (30_encoding.md R67). -/
theorem portRdata_poll (s : State) : portRdata pollEdge s = portView 0x01 s := regRead_eq_portView 0x01 s

/-- BUSY and DONE as a read of STATUS shows them (10_state.md R13). -/
theorem portView_status (s : State) : (portView 0x01 s).getLsbD 0 = s.busy ∧ (portView 0x01 s).getLsbD 1 = s.done := by
  obtain ⟨busy, done, -⟩ := statusWord_flags Config.default_width_allowed s
  exact ⟨busy, done⟩

/-- Every cycle without a write answers, when the command in flight has an outcome (20_memory.md R54). -/
theorem drive_read (e : Edge) (c : Bool) (s : State) (hs : s.CanComplete) (hr : e.rst = false) (hw : e.we = false) :
    ∃ t, drive e c s = .next t ∧ AfterRead e c s t := by
  cases hq : s.busy && c with
  | false =>
    have flight : s.busy = (s.busy && !c) := by revert hq; cases s.busy <;> cases c <;> simp
    refine ⟨_, drive_quiet e c s hr hq, ?_⟩
    rw [hostCycle_read e s hw]
    exact ⟨hs, rfl, flight, by simp [hq], rfl⟩
  | true =>
    obtain ⟨hb, rfl⟩ := Bool.and_eq_true_iff.1 hq
    obtain ⟨o, ho⟩ := hs hb
    refine ⟨_, drive_completes e s o hr hb ho, ?_⟩
    rw [hostCycle_read e s hw]
    exact ⟨fun busy => absurd busy (by simp), by simp, by simp, by simp [hb], by simp⟩

/-- A poll shows BUSY and DONE as they were before its edge (20_memory.md R41; 30_encoding.md R67). -/
theorem AfterRead.rdata_poll {c : Bool} {s t : State} (h : AfterRead pollEdge c s t) :
    t.rdata.getLsbD 0 = s.busy ∧ t.rdata.getLsbD 1 = s.done := by
  rw [h.rdata, portRdata_poll]
  exact portView_status s

/-! ### one cycle of a schedule -/

/-- In an idle cycle the host stays where it is. -/
theorem play_idle (c : Bool) (slots : List Slot) (op : HostOp) (ops : List HostOp) (s t : State)
    (h : drive (idleEdge false) c s = .next t) : play (⟨true, c⟩ :: slots) (op :: ops) s = play slots (op :: ops) t := by
  rw [play_slot, if_pos rfl, h, andThen]

/-- In a cycle with an access the host does its next thing, and stays at it when it polled and saw BUSY = 1. -/
theorem play_access (c : Bool) (slots : List Slot) (op : HostOp) (ops : List HostOp) (s t : State)
    (h : drive op.edge c s = .next t) :
    play (⟨false, c⟩ :: slots) (op :: ops) s = play slots (if op.again t then op :: ops else ops) t := by
  rw [play_slot, if_neg Bool.false_ne_true, h, andThen]

/-- A schedule's cycles may be played in two parts. -/
theorem play_append (first second : List Slot) : ∀ (ops : List HostOp) (s : State),
    play (first ++ second) ops s = andThen (play first ops s) fun q => play second q.todo q.state := by
  induction first with
  | nil => exact fun ops s => rfl
  | cons slot first ih =>
    intro ops s
    cases ops with
    | nil => simp [andThen]
    | cons op ops =>
      have go : ∀ (o : Host.Outcome State Fault Refusal) (f : State → List HostOp),
          andThen o (fun t => play (first ++ second) (f t) t) =
            andThen (andThen o fun t => play first (f t) t) fun q => play second q.todo q.state := by
        intro o f
        cases o with
        | next t => exact ih (f t) t
        | fault | refused => rfl
      rw [List.cons_append, play_slot, play_slot]
      split_ifs
      · exact go _ fun _ => op :: ops
      · exact go _ fun t => if op.again t then op :: ops else ops

/-- A program of one line plays what the line asks of the host (30_encoding.md R67). -/
theorem runProgram_line (slots : List Slot) (l : HostLine) (s : State) : runProgram slots [l] s = play slots l.expand s := by
  rw [runProgram, List.flatMap_singleton]

/-! ### WAIT -/

/-- A WAIT entered at `s` has ended at `t`: the last word read shows BUSY = 0, and a command that was in flight or had completed
shows as completed. -/
structure WaitEnded (s t : State) : Prop where
  shown : t.rdata.getLsbD 0 = false
  busy : t.busy = false
  edges : t.edges = s.edges
  done : s.busy = true ∨ s.done = true → t.rdata.getLsbD 1 = true ∧ t.done = true

/-- A WAIT entered at `s` goes on at `t`: no command was started, and none was lost. -/
structure WaitGoesOn (s t : State) : Prop where
  canComplete : t.CanComplete
  busy : s.busy = false → t.busy = false
  edges : t.edges = s.edges
  done : s.busy = true ∨ s.done = true → t.busy = true ∨ t.done = true

theorem AfterRead.waitGoesOn {e : Edge} {c : Bool} {s t : State} (h : AfterRead e c s t) : WaitGoesOn s t where
  canComplete := h.canComplete
  busy := fun hb => by rw [h.busy, hb]; rfl
  edges := h.edges
  done := fun hd => by rw [h.busy, h.done]; revert hd; cases s.busy <;> cases s.done <;> cases c <;> simp

theorem WaitGoesOn.trans {s t u : State} (h : WaitGoesOn s t) (h' : WaitGoesOn t u) : WaitGoesOn s u :=
  ⟨h'.canComplete, fun hb => h'.busy (h.busy hb), h'.edges.trans h.edges, fun hd => h'.done (h.done hd)⟩

theorem WaitGoesOn.ended {s t u : State} (h : WaitGoesOn s t) (h' : WaitEnded t u) : WaitEnded s u :=
  ⟨h'.shown, h'.busy, h'.edges.trans h.edges, fun hd => h'.done (h.done hd)⟩

/-- A poll with BUSY = 0 ends the WAIT (30_encoding.md R67). -/
theorem play_poll_clear (c : Bool) (slots : List Slot) (s : State) (hb : s.busy = false) :
    play (⟨false, c⟩ :: slots) [.poll] s = .next { state := { s with rdata := portView 0x01 s }, todo := [] } := by
  have read : drive pollEdge c s = .next { s with rdata := portView 0x01 s } := by
    rw [drive_quiet pollEdge c s rfl (by simp [hb]), hostCycle_read _ _ rfl, portRdata_poll]
  have left : HostOp.poll.again { s with rdata := portView 0x01 s } = false := (portView_status s).1.trans hb
  rw [play_access c slots .poll [] s _ read, left]
  exact play_done slots _

theorem waitEnded_poll_clear (s : State) (hb : s.busy = false) : WaitEnded s { s with rdata := portView 0x01 s } := by
  obtain ⟨busy, done⟩ := portView_status s
  refine ⟨busy.trans hb, hb, rfl, fun hd => ?_⟩
  have completed : s.done = true := hd.resolve_left (by simp [hb])
  exact ⟨done.trans completed, completed⟩

/-- Where a WAIT entered at `s` has come to under a schedule: it has ended, or it goes on, with BUSY = 0 once the engine has
had a cycle to complete in. -/
def WaitComesTo (slots : List Slot) (s t : State) : Prop :=
  (play slots [.poll] s = .next { state := t, todo := [] } ∧ WaitEnded s t) ∨
  (play slots [.poll] s = .next { state := t, todo := [.poll] } ∧ WaitGoesOn s t ∧
    ((∃ x ∈ slots, x.completes = true) → t.busy = false))

/-- A cycle after which the host still polls leaves the rest of the WAIT to the rest of the schedule. -/
theorem WaitComesTo.cons {e : Edge} {slot : Slot} {slots : List Slot} {s t u : State} (after : AfterRead e slot.completes s t)
    (same : play (slot :: slots) [.poll] s = play slots [.poll] t) (h : WaitComesTo slots t u) :
    WaitComesTo (slot :: slots) s u := by
  rcases h with ⟨played, ended⟩ | ⟨played, on, clear⟩
  · exact .inl ⟨same.trans played, after.waitGoesOn.ended ended⟩
  · refine .inr ⟨same.trans played, after.waitGoesOn.trans on, ?_⟩
    rintro ⟨x, hx, completes⟩
    rcases List.mem_cons.1 hx with rfl | later
    · exact on.busy (by rw [after.busy, completes, Bool.not_true, Bool.and_false])
    · exact clear ⟨x, later, completes⟩

theorem exists_waitComesTo (slots : List Slot) : ∀ s : State, s.CanComplete → ∃ t, WaitComesTo slots s t := by
  induction slots with
  | nil => exact fun s hs => ⟨s, .inr ⟨rfl, ⟨hs, id, rfl, id⟩, by simp⟩⟩
  | cons slot slots ih =>
    intro s hs
    obtain ⟨idle, c⟩ := slot
    cases idle with
    | true =>
      obtain ⟨t, driven, after⟩ := drive_read (idleEdge false) c s hs rfl rfl
      obtain ⟨u, hu⟩ := ih t after.canComplete
      exact ⟨u, hu.cons after (play_idle c slots .poll [] s t driven)⟩
    | false =>
      cases hb : s.busy with
      | false => exact ⟨_, .inl ⟨play_poll_clear c slots s hb, waitEnded_poll_clear s hb⟩⟩
      | true =>
        obtain ⟨t, driven, after⟩ := drive_read pollEdge c s hs rfl rfl
        obtain ⟨u, hu⟩ := ih t after.canComplete
        have again : HostOp.poll.again t = true := after.rdata_poll.1.trans hb
        exact ⟨u, hu.cons after (by rw [play_access c slots .poll [] s t driven, again]; rfl)⟩

/-- A WAIT ends at the first poll after a cycle at which the engine completes, if not before (30_encoding.md R67). -/
theorem wait_ends (slots : List Slot) (polling : Slot) (s : State) (hs : s.CanComplete)
    (completing : ∃ x ∈ slots, x.completes = true) (hi : polling.idle = false) :
    ∃ t, play (slots ++ [polling]) [.poll] s = .next { state := t, todo := [] } ∧ WaitEnded s t := by
  rw [play_append]
  obtain ⟨t, ⟨played, ended⟩ | ⟨played, on, clear⟩⟩ := exists_waitComesTo slots s hs
  · exact ⟨t, by rw [played]; rfl, ended⟩
  · have hb : t.busy = false := clear completing
    obtain ⟨idle, c⟩ := polling
    obtain rfl : idle = false := hi
    exact ⟨_, by rw [played]; exact play_poll_clear c [] t hb, on.ended (waitEnded_poll_clear t hb)⟩

/-- Settles O45: a poll with BUSY = 0 ends the WAIT, and once the engine has completed every poll is one. -/
theorem waitEndsWithBusyClear : Obligations.WaitEndsWithBusyClear := by
  refine ⟨fun s c slots hb => ?atRest, fun s t slots hs h => ?ended, fun s before between completing polling hs hc hi => ?ends⟩
  case atRest => rw [runProgram_line]; exact play_poll_clear c slots s hb
  case ended =>
    rw [runProgram_line] at h
    obtain ⟨u, ⟨played, ended⟩ | ⟨played, -⟩⟩ := exists_waitComesTo slots s hs.canComplete
    · cases played.symm.trans h
      exact ⟨ended.shown, ended.busy, ended.edges⟩
    · cases played.symm.trans h
  case ends =>
    obtain ⟨t, played, ended⟩ :=
      wait_ends (before ++ completing :: between) polling s hs.canComplete ⟨completing, by simp, hc⟩ hi
    refine ⟨t, ?_, ended.shown, ended.busy, ended.edges, fun hb => ended.done (.inl hb)⟩
    rw [runProgram_line, ← List.cons_append, ← List.append_assoc]
    exact played

/-! ### a completion between two records -/

/-- With BUSY = 0 a computing command is accepted in its cycle (40_command_protocol.md R70). -/
theorem drive_computing (i : Instr) (c : Bool) (s : State) (hb : s.busy = false) (hi : Computing i) :
    ∃ v, drive (accessEdge i.access false) c s = .next (showRdata 0 (accept v s)) ∧ (accept v s).CanComplete := by
  obtain ⟨v, hv⟩ : ∃ v, i.commandWord = some v := by
    rcases hi with rfl | rfl | rfl | rfl | rfl | rfl <;> exact ⟨_, rfl⟩
  have range := computing_commandWord_range Config.default_width_allowed i v hi hv
  refine ⟨v, ?_, fun _ => outcomeOf_isSome_of_range v _ range⟩
  rw [drive_quiet _ c s rfl (by simp [hb]), access_of_commandWord i v hv]
  exact congrArg (fun t => Host.Outcome.next (showRdata 0 t)) (hostWrite_cmd_accept v s hb range)

/-- A command, a cycle in which the engine completes or not, and a read of STATUS, which shows which of the two it was. -/
theorem command_then_status (s : State) (i : Instr) (completes c : Bool) (hb : s.busy = false) (hi : Computing i) :
    ∃ t, runProgram [⟨false, false⟩, ⟨true, completes⟩, ⟨false, c⟩] [.access i, .access (.rd 0x01)] s =
      .next { state := t, todo := [] } ∧ t.rdata.getLsbD 0 = !completes ∧ t.rdata.getLsbD 1 = completes := by
  obtain ⟨v, accepted, can⟩ := drive_computing i false s hb hi
  obtain ⟨t, waited, after⟩ := drive_read (idleEdge false) completes (showRdata 0 (accept v s)) can rfl rfl
  obtain ⟨u, read, shown⟩ := drive_read pollEdge c t after.canComplete rfl rfl
  obtain ⟨busy, done⟩ := shown.rdata_poll
  refine ⟨u, ?_, by rw [busy, after.busy]; rfl, by rw [done, after.done]; rfl⟩
  calc play [⟨false, false⟩, ⟨true, completes⟩, ⟨false, c⟩] [.pins (accessEdge i.access false), .pins pollEdge] s
      = play [⟨true, completes⟩, ⟨false, c⟩] [.pins pollEdge] (showRdata 0 (accept v s)) :=
        play_access _ _ (.pins _) _ _ _ accepted
    _ = play [⟨false, c⟩] [.pins pollEdge] t := play_idle _ _ _ _ _ _ waited
    _ = play [] [] u := play_access _ _ (.pins _) _ _ _ read

/-- Settles O54: the read shows BUSY and DONE as the engine's choice in the cycle before it left them. -/
theorem engineMayCompleteBetweenRecords : Obligations.EngineMayCompleteBetweenRecords := fun s i c hb hi =>
  ⟨command_then_status s i false c hb hi, command_then_status s i true c hb hi⟩

/-! ### writes under a schedule -/

/-- How many cycles of a schedule leave the host its access. -/
abbrev accessCycles (slots : List Slot) : Nat := (slots.filter fun x => !x.idle).length

/-- A schedule with a cycle for an access has idle cycles up to the first such cycle, and these keep what an idle cycle keeps. -/
theorem play_until_access (P : State → Prop)
    (keeps : ∀ c s, P s → ∃ t, drive (idleEdge false) c s = .next t ∧ P t) (op : HostOp) (ops : List HostOp)
    (slots : List Slot) : ∀ s, P s → 1 ≤ accessCycles slots → ∃ (t : State) (c : Bool) (rest : List Slot), P t ∧
      accessCycles rest + 1 = accessCycles slots ∧ play slots (op :: ops) s = play (⟨false, c⟩ :: rest) (op :: ops) t := by
  induction slots with
  | nil => exact fun s _ enough => absurd enough (by decide)
  | cons slot slots ih =>
    intro s hs enough
    obtain ⟨idle, c⟩ := slot
    cases idle with
    | false => exact ⟨s, c, slots, hs, rfl, rfl⟩
    | true =>
      obtain ⟨t, driven, ht⟩ := keeps c s hs
      obtain ⟨u, c', rest, hu, count, played⟩ := ih t ht enough
      exact ⟨u, c', rest, hu, count, (play_idle c slots op ops s t driven).trans played⟩

/-- With BUSY = 0 a write under any schedule is the write cycle, whatever `rdata` showed before. -/
theorem play_write_at_rest (r : Reg) (v : Word) (ops : List HostOp) (s u : State) (slots : List Slot) (hb : s.busy = false)
    (hw : ∀ x, writeCycle r.index v (showRdata x s) = u) (enough : 1 ≤ accessCycles slots) :
    ∃ rest, accessCycles rest + 1 = accessCycles slots ∧
      play slots (.pins (writeReg r v) :: ops) s = play rest ops u := by
  have quiet : ∀ (e : Edge) (c : Bool) (x : Word), e.rst = false →
      drive e c (showRdata x s) = .next (hostCycle e (showRdata x s)) :=
    fun e c x hr => drive_quiet e c _ hr (by simp [hb])
  have keeps : ∀ c t, (∃ x, t = showRdata x s) →
      ∃ t', drive (idleEdge false) c t = .next t' ∧ ∃ x, t' = showRdata x s := by
    rintro c _ ⟨x, rfl⟩
    exact ⟨_, quiet _ c x rfl, 0, rfl⟩
  obtain ⟨_, c, rest, ⟨x, rfl⟩, count, played⟩ :=
    play_until_access (fun t => ∃ x, t = showRdata x s) keeps (.pins (writeReg r v)) ops slots s ⟨s.rdata, rfl⟩ enough
  have written : drive (writeReg r v) c (showRdata x s) = .next u := (quiet _ c x rfl).trans (congrArg _ (hw x))
  exact ⟨rest, count, played.trans (play_access c rest (.pins (writeReg r v)) ops _ u written)⟩

/-- Words stored in registers one after the other (20_memory.md R44, case 6). -/
def State.putAll (ws : List (Reg × Word W)) (s : State W) : State W := ws.foldl (fun t w => t.put w.1 w.2) s

theorem put_busy (s : State W) (r : Reg) (v : Word W) : (s.put r v).busy = s.busy := by
  cases r <;> rfl

theorem put_keylock (s : State W) (r : Reg) (v : Word W) : (s.put r v).keylock = s.keylock := by
  cases r <;> rfl

theorem put_showRdata (s : State W) (r : Reg) (v x : Word W) : (showRdata x s).put r v = showRdata x (s.put r v) := by
  cases r <;> rfl

theorem putAll_showRdata (ws : List (Reg × Word W)) (x : Word W) : ∀ s : State W,
    State.putAll ws (showRdata x s) = showRdata x (State.putAll ws s) := by
  induction ws with
  | nil => exact fun s => rfl
  | cons w ws ih => exact fun s => (congrArg (State.putAll ws) (put_showRdata s w.1 w.2 x)).trans (ih _)

/-- With BUSY = 0 and KEYLOCK = 0 a write cycle of a data register stores the word, whatever `rdata` showed before. -/
theorem writeCycle_data (r : Reg) (v x : Word W) (s : State W) (hb : s.busy = false) (hk : s.keylock = false)
    (hd : r.isData = true) : writeCycle r.index v (showRdata x s) = showRdata 0 (s.put r v) := by
  rw [writeCycle, hostWrite_data r v (showRdata x s) hb hd (by simp [hk]), put_showRdata]
  rfl

/-- The writes of words to registers as things the host does. -/
def writeOps (ws : List (Reg × Word)) : List HostOp := ws.map fun w => .pins (writeReg w.1 w.2)

/-- With BUSY = 0 and KEYLOCK = 0 the first of the writes of data registers stores its word, under any schedule with cycles
enough for all of them. -/
theorem play_writeOps_cons (w : Reg × Word) (ws : List (Reg × Word)) (s : State) (slots : List Slot) (hb : s.busy = false)
    (hk : s.keylock = false) (hd : w.1.isData = true) (enough : (w :: ws).length ≤ accessCycles slots) :
    ∃ rest, ws.length ≤ accessCycles rest ∧
      play slots (writeOps (w :: ws)) s = play rest (writeOps ws) (showRdata 0 (s.put w.1 w.2)) := by
  rw [List.length_cons] at enough
  obtain ⟨rest, count, played⟩ := play_write_at_rest w.1 w.2 (writeOps ws) s _ slots hb
    (fun x => writeCycle_data w.1 w.2 x s hb hk hd) (by omega)
  exact ⟨rest, by omega, played⟩

/-- With BUSY = 0 and KEYLOCK = 0, writes of data registers under any schedule with cycles enough store their words. -/
theorem play_writeOps (ws : List (Reg × Word)) : ∀ (w : Reg × Word) (s : State) (slots : List Slot), s.busy = false →
    s.keylock = false → (∀ p ∈ w :: ws, p.1.isData = true) → (w :: ws).length ≤ accessCycles slots →
    play slots (writeOps (w :: ws)) s = .next { state := showRdata 0 (State.putAll (w :: ws) s), todo := [] } := by
  induction ws with
  | nil =>
    intro w s slots hb hk hd enough
    obtain ⟨rest, -, played⟩ := play_writeOps_cons w [] s slots hb hk (hd w List.mem_cons_self) enough
    exact played.trans (play_done rest _)
  | cons w' ws ih =>
    intro w s slots hb hk hd enough
    obtain ⟨rest, enough', played⟩ := play_writeOps_cons w (w' :: ws) s slots hb hk (hd w List.mem_cons_self) enough
    rw [played, ih w' (showRdata 0 (s.put w.1 w.2)) rest ((put_busy s _ _).trans hb) ((put_keylock s _ _).trans hk)
      (fun p hp => hd p (List.mem_cons_of_mem _ hp)) enough', putAll_showRdata]
    rfl

/-! ### LDPRIV and LDPUB -/

/-- The elements of a bank as words for its registers, in rising order (30_encoding.md R67). -/
def bankWords (reg : Fin 8 → Reg) (v : Bank W) : List (Reg × Word W) := elementNumbers.map fun j => (reg j, v[j])

/-- With BUSY = 0 and KEYLOCK = 0 the eight writes of a bank store its elements, under any schedule with cycles enough. -/
theorem play_bankWords (reg : Fin 8 → Reg) (hd : ∀ j, (reg j).isData = true) (v : Bank) (s : State) (slots : List Slot)
    (hb : s.busy = false) (hk : s.keylock = false) (enough : 8 ≤ accessCycles slots) :
    play slots (writeOps (bankWords reg v)) s =
      .next { state := showRdata 0 (State.putAll (bankWords reg v) s), todo := [] } := by
  have data : ∀ p ∈ bankWords reg v, p.1.isData = true := fun p hp => by
    obtain ⟨j, -, rfl⟩ := List.mem_map.1 hp
    exact hd j
  exact play_writeOps _ _ s slots hb hk data enough

/-- A bank with some of its elements set to those of `v`. -/
def setElements (v : Bank W) (js : List (Fin 8)) (b : Bank W) : Bank W := js.foldl (fun b j => b.set j.val v[j] j.isLt) b

/-- With every element set a bank is that bank (10_state.md R20, R21). -/
theorem setElements_elementNumbers (v b : Bank W) : setElements v elementNumbers b = v := by
  refine Vector.ext fun k hk => ?_
  interval_cases k <;> simp [setElements, elementNumbers]

theorem putAll_priv (v : Bank W) (js : List (Fin 8)) : ∀ s : State W,
    State.putAll (js.map fun j => (.priv j, v[j])) s = { s with priv := setElements v js s.priv } := by
  induction js with
  | nil => exact fun s => rfl
  | cons j js ih => exact fun s => ih (s.put (.priv j) v[j])

theorem putAll_pub (v : Bank W) (js : List (Fin 8)) : ∀ s : State W,
    State.putAll (js.map fun j => (.pub j, v[j])) s = { s with pub := setElements v js s.pub } := by
  induction js with
  | nil => exact fun s => rfl
  | cons j js ih => exact fun s => ih (s.put (.pub j) v[j])

/-! ### LOCK and RESET -/

/-- With BUSY = 0 a write cycle of CTRL with the word of LOCK sets KEYLOCK and gives IE (10_state.md R18; 30_encoding.md R67). -/
theorem writeCycle_lock (ie : Bool) (x : Word) (s : State) (hb : s.busy = false) :
    writeCycle Reg.ctrl.index ((BitVec.ofBool true ++ BitVec.ofBool ie).setWidth Config.W) (showRdata x s) =
      { s with ie := ie, keylock := true, rdata := 0 } := by
  rw [writeCycle, show Reg.ctrl.index = 0x02 from rfl, hostWrite_ctrl _ (showRdata x s) hb]
  cases ie <;> simp [writeCtrl, showRdata]

/-- Settles O46: each line is writes at rest, or a reset, and between them the idle cycles keep what its accesses need. -/
theorem pseudoInstructionsExpand : Obligations.PseudoInstructionsExpand := by
  refine ⟨fun s v slots hb hk enough => ⟨?priv, ?pub⟩, fun s ie slots hb enough => ?lock, fun s slots hs enough => ?reset⟩
  case priv =>
    have loaded := play_bankWords .priv (fun _ => rfl) v s slots hb hk enough
    rw [bankWords, putAll_priv, setElements_elementNumbers] at loaded
    rw [runProgram_line]
    exact loaded
  case pub =>
    have loaded := play_bankWords .pub (fun _ => rfl) v s slots hb hk enough
    rw [bankWords, putAll_pub, setElements_elementNumbers] at loaded
    rw [runProgram_line]
    exact loaded
  case lock =>
    obtain ⟨rest, -, played⟩ := play_write_at_rest .ctrl _ [] s _ slots hb (fun x => writeCycle_lock ie x s hb) enough
    rw [runProgram_line]
    exact played.trans (play_done rest _)
  case reset =>
    have keeps : ∀ c t, t.CanComplete ∧ t.edges = s.edges →
        ∃ u, drive (idleEdge false) c t = .next u ∧ u.CanComplete ∧ u.edges = s.edges := by
      rintro c t ⟨can, edges⟩
      obtain ⟨u, driven, after⟩ := drive_read (idleEdge false) c t can rfl rfl
      exact ⟨u, driven, after.canComplete, after.edges.trans edges⟩
    obtain ⟨t, c, rest, ⟨-, edges⟩, -, played⟩ := play_until_access (fun t => t.CanComplete ∧ t.edges = s.edges) keeps
      (.pins resetEdge) [] slots s ⟨hs.canComplete, rfl⟩ enough
    rw [runProgram_line, ← edges]
    exact played.trans ((play_access c rest (.pins resetEdge) [] t _ (drive_reset c t)).trans (play_done rest _))

end Sys2Proof.Machine
end

section
/-! SUPPORT. The command protocol (40_command_protocol.md R70 to R76): a command word at its accept edge, ACK, the flight of a
command, and its completion. -/

namespace Sys2Proof.Machine

open Sys2Proof.Claims

variable {W : Nat}

/-! ### a word written to CMD -/

/-- With BUSY = 0 a word written to CMD is one of the three cases (40_command_protocol.md R70). -/
theorem hostWrite_cmd (v : Word W) (s : State W) (hb : s.busy = false) : hostWrite 0x00 v s = afterCommandWord v s := by
  have issued : hostWrite 0x00 v s = issue v s := by rw [hostWrite, hb]; rfl
  rw [issued, issue_eq_afterCommandWord]

/-- A command is the host's write of its word to CMD (30_encoding.md R66). -/
theorem exec_command (i : Instr) (v : Word) (s : State) (hv : i.commandWord = some v) :
    exec i s = .next { hostWrite 0x00 v s with rdata := 0 } := by
  rw [exec_eq_portCycle, access_of_commandWord i v hv]
  rfl

/-- With BUSY = 0 a computing command is accepted (40_command_protocol.md R70). -/
theorem exec_computing (i : Instr) (v : Word) (s : State) (hb : s.busy = false) (hi : Computing i)
    (hv : i.commandWord = some v) : exec i s = .next (showRdata 0 (accept v s)) := by
  have range := computing_commandWord_range Config.default_width_allowed i v hi hv
  rw [exec_command i v s hv, hostWrite_cmd_accept v s hb range, showRdata]

/-- Settles O17: the write to CMD is that of its three cases, and the word of a computing command is in the last. -/
theorem commandWordAccepted : Obligations.CommandWordAccepted :=
  ⟨fun s v hb => by rw [exec_wr, hostWrite_cmd v s hb], fun s i v hb hi hv => exec_computing i v s hb hi hv⟩

/-! ### ACK -/

/-- With BUSY = 0 ACK clears DONE and the fault record (40_command_protocol.md R74). -/
theorem exec_ack (s : State) (hb : s.busy = false) :
    exec .ack s = .next { s with cmd := 7, done := false, err := false, ecode := none, rdata := 0 } := by
  have acknowledged : afterCommandWord 7 s = acknowledge 7 s := rfl
  rw [exec_command .ack 7 s rfl, hostWrite_cmd 7 s hb, acknowledged, acknowledge]

/-- Settles O18: ACK is the word 7 written to CMD, dropped like any write while BUSY; a bit above bit 3 makes it illegal, and
with nothing recorded there is nothing to clear. -/
theorem ackClearsStatus : Obligations.AckClearsStatus := by
  refine ⟨exec_ack, fun s hb => ?dropped, fun s v hb _ above => ?illegal, fun s inv hd he hb => ?nothing⟩
  case dropped => rw [exec_command .ack 7 s rfl, hostWrite_busy _ _ s hb, raise_eq_recorded]
  case illegal => rw [exec_wr, hostWrite_cmd v s hb, afterCommandWord, if_pos (.inl above)]
  case nothing =>
    have noCode : s.ecode = none := inv.1.1 he
    rw [exec_ack s hb]
    simp [hd, he, noCode]

/-! ### completion -/

/-- Settles O19: a legal state in flight has an outcome, its completion delivers it, and a result fits the register. -/
theorem completionDeliversOutcome : Obligations.CompletionDeliversOutcome := by
  intro W hW s inv hb
  obtain ⟨o, ho⟩ := outcomeOf_isSome s inv hb
  refine ⟨o, finish o s, ho, by rw [completeInFlight, ho], ?_⟩
  cases o with
  | result r f => exact ⟨outcomeOf_fits hW _ s r f ho, rfl⟩
  | fault c => exact show finish _ _ = _ by rw [finish, deliver, raise_eq_recorded]

/-! ### a command in flight -/

/-- Every register that the host can write is in `t` as in `s` (40_command_protocol.md R72). -/
structure SameHostRegisters (s t : State W) : Prop where
  opa : t.opa = s.opa
  opb : t.opb = s.opb
  modulus : t.modulus = s.modulus
  invmult : t.invmult = s.invmult
  priv : t.priv = s.priv
  pub : t.pub = s.pub
  ie : t.ie = s.ie
  keylock : t.keylock = s.keylock
  cmd : t.cmd = s.cmd

/-- The command in flight at `s` is still in flight at `t`, and it has delivered nothing (40_command_protocol.md R72, R73). -/
structure StaysInFlight (s t : State W) : Prop extends SameHostRegisters s t where
  busy : t.busy = true
  res : t.res = s.res
  flag : t.flag = s.flag
  done : t.done = s.done

theorem SameHostRegisters.trans {s t u : State W} (h : SameHostRegisters s t) (h' : SameHostRegisters t u) :
    SameHostRegisters s u :=
  ⟨h'.opa.trans h.opa, h'.opb.trans h.opb, h'.modulus.trans h.modulus, h'.invmult.trans h.invmult, h'.priv.trans h.priv,
    h'.pub.trans h.pub, h'.ie.trans h.ie, h'.keylock.trans h.keylock, h'.cmd.trans h.cmd⟩

/-- The model's own fields are no part of a flight (log 2, log 5). -/
theorem staysInFlight_own_fields (v : Word W) (l : List (Edge W)) {s : State W} (hb : s.busy = true) :
    StaysInFlight s { s with rdata := v, edges := l } :=
  ⟨⟨rfl, rfl, rfl, rfl, rfl, rfl, rfl, rfl, rfl⟩, hb, rfl, rfl, rfl⟩

theorem StaysInFlight.trans {s t u : State W} (h : StaysInFlight s t) (h' : StaysInFlight t u) : StaysInFlight s u :=
  ⟨h.toSameHostRegisters.trans h'.toSameHostRegisters, h'.busy, h'.res.trans h.res, h'.flag.trans h.flag,
    h'.done.trans h.done⟩

/-- The host's part of an edge does nothing to a command in flight (40_command_protocol.md R72). -/
theorem hostCycle_staysInFlight (e : Edge W) (s : State W) (hb : s.busy = true) : StaysInFlight s (hostCycle e s) := by
  rw [hostCycle_busy e s hb]
  cases e.sel && e.we with
  | false => exact staysInFlight_own_fields _ s.edges hb
  | true =>
    have dropped : SameHostRegisters s (raise .eBusy s) := by constructor <;> simp
    exact ⟨{ dropped with }, (raise_busy _ s).trans hb, raise_res _ s, raise_flag _ s, raise_done _ s⟩

/-- A completion writes no register that the host can write (10_state.md R24). -/
theorem finish_sameHostRegisters (o : CmdOutcome) (s : State W) : SameHostRegisters s (finish o s) := by
  constructor <;> simp

/-- The outcome is fixed by the registers that the host can write (30_encoding.md R64). -/
theorem SameHostRegisters.outcomeOf_eq {s t : State W} (h : SameHostRegisters s t) :
    outcomeOf (opField t.cmd) t = outcomeOf (opField s.cmd) s := by
  rw [h.cmd]
  exact outcomeOf_congr _ t s h.opa h.opb h.modulus h.invmult h.priv h.pub

/-- Settles O31: the host's part of the edge leaves the flight as it was, and a completion, after which BUSY = 0, writes no
register of the host's. -/
theorem registersStableInFlight : Obligations.RegistersStableInFlight := by
  intro s t hb hr h
  have host : StaysInFlight s (hostCycle (nextEdge s) (dropEdge s)) :=
    (staysInFlight_own_fields s.rdata s.edges.tail hb).trans (hostCycle_staysInFlight _ _ hb)
  have same : SameHostRegisters s t ∧ (t.busy = true → t.res = s.res ∧ t.flag = s.flag ∧ t.done = s.done) := by
    rcases step_cases s t h with ⟨reset, -⟩ | ⟨-, -, rfl⟩ | ⟨-, -, -, o, -, rfl⟩
    · cases hr.symm.trans reset
    · exact ⟨host.toSameHostRegisters, fun _ => ⟨host.res, host.flag, host.done⟩⟩
    · exact ⟨host.toSameHostRegisters.trans (finish_sameHostRegisters o _), fun busy => by cases busy⟩
  obtain ⟨⟨opa, opb, modulus, invmult, priv, pub, ie, keylock, cmd⟩, delivered⟩ := same
  exact ⟨opa, opb, modulus, invmult, priv, pub, ie, keylock, cmd, delivered⟩

/-- With BUSY = 0 the edge of a computing command's access accepts it (40_command_protocol.md R70). -/
theorem step_accept (i : Instr) (v : Word) (s : State) (c : Bool) (l : List Edge) (hb : s.busy = false) (hi : Computing i)
    (hv : i.commandWord = some v) : step { s with edges := accessEdge i.access c :: l } =
      .next { showRdata 0 (accept v s) with edges := l } := by
  have accepted : exec (decodeAccess i.access) { s with edges := l } =
      .next { showRdata 0 (accept v s) with edges := l } := by
    rw [exec_decodeAccess, ← exec_eq_portCycle]
    exact exec_computing i v { s with edges := l } hb hi hv
  rw [step_access s (accessEdge i.access c) l rfl rfl, show (accessEdge i.access c).access = i.access from rfl, accepted]
  exact enginePart_of_no_completion _ _ _ (by simp [hb])

/-- Edges with neither a reset nor a completion leave a command in flight, and the run goes on with the edges after them
(40_command_protocol.md R72). -/
theorem run_flight (k : Nat) (rest flight : List Edge) : ∀ s : State, s.busy = true → NoReset flight →
    (∀ e ∈ flight, e.completes = false) → ∃ t, StaysInFlight s t ∧
      run (flight.length + k) { s with edges := flight ++ rest } = run k { t with edges := rest } := by
  induction flight with
  | nil =>
    intro s hb _ _
    exact ⟨s, staysInFlight_own_fields s.rdata s.edges hb, by rw [List.length_nil, Nat.zero_add, List.nil_append]⟩
  | cons e flight ih =>
    intro s hb noReset quiet
    obtain ⟨hr, noReset⟩ := List.forall_mem_cons.1 noReset
    obtain ⟨hc, quiet⟩ := List.forall_mem_cons.1 quiet
    have host := hostCycle_staysInFlight e s hb
    obtain ⟨t, later, ran⟩ := ih (hostCycle e s) host.busy noReset quiet
    have stepped : step { s with edges := e :: (flight ++ rest) } = .next { hostCycle e s with edges := flight ++ rest } := by
      rw [step_eq_stepAt, stepAt_of_no_completion e _ s hr (.inr hc)]
    refine ⟨t, host.trans later, ?_⟩
    rw [List.length_cons, Nat.add_right_comm, ← ran]
    exact run_succ_of_step _ _ _ stepped

/-- Settles O30: the accept edge and the flight keep the registers the outcome is computed from, so the completing edge delivers
the outcome they gave at the accept edge. -/
theorem outcomeFixedAtAccept : Obligations.OutcomeFixedAtAccept := by
  intro s i v flight last rest hb hi hv noReset quiet hr hc
  have range := computing_commandWord_range Config.default_width_allowed i v hi hv
  obtain ⟨o, ho⟩ := outcomeOf_isSome_of_range v s range
  have accepted := step_accept i v s false (flight ++ last :: rest) hb hi hv
  obtain ⟨t, flown, ran⟩ := run_flight 1 (last :: rest) flight (showRdata 0 (accept v s)) rfl noReset quiet
  have ended : step { t with edges := last :: rest } = .next { finish o (hostCycle last t) with edges := rest } := by
    rw [step_eq_stepAt, stepAt_of_completion last rest t o hr flown.busy hc (flown.outcomeOf_eq.trans ho)]
  have host := flown.trans (hostCycle_staysInFlight last t flown.busy)
  obtain ⟨opa, opb, modulus, invmult, priv, pub, ie, keylock, cmd⟩ :=
    host.toSameHostRegisters.trans (finish_sameHostRegisters o (hostCycle last t))
  refine ⟨o, { finish o (hostCycle last t) with edges := rest }, ho, ?run, rfl, rfl, cmd, rfl, opa, opb, modulus, invmult,
    priv, pub, ie, keylock, ?outcome⟩
  case run =>
    calc run (flight.length + 2) { s with edges := accessEdge i.access false :: (flight ++ last :: rest) }
        = run (flight.length + 1) { showRdata 0 (accept v s) with edges := flight ++ last :: rest } :=
          run_succ_of_step _ _ _ accepted
      _ = run 1 { t with edges := last :: rest } := ran
      _ = .next { finish o (hostCycle last t) with edges := rest } := run_succ_of_step 0 _ _ ended
  case outcome =>
    cases o with
    | result r f => exact finish_result r f (hostCycle last t) (outcomeOf_fits Config.default_width_allowed _ s r f ho)
    | fault c =>
      obtain ⟨res, flag⟩ := finish_fault_frame c (hostCycle last t)
      exact ⟨res.trans host.res, flag.trans host.flag, raise_err c _⟩

end Sys2Proof.Machine
end

section
/-! SUPPORT. The number-theory unit (41_number_theory.md R90 to R95): a command from its accept edge to its completion, then the
Euclidean algorithm, GCD, ISPRIME and MODINV. -/

namespace Sys2Proof.Machine

open Sys2Proof.Claims

/-! ### a command from its accept edge to its completion -/

/-- With BUSY = 0 a computing command runs to the state its outcome is delivered in, the outcome being that of the registers
before the command (40_command_protocol.md R70, R73). -/
theorem runs_finish {i : Instr} {v : Word} {s : State} {o : CmdOutcome} (hb : s.busy = false) (hi : Computing i)
    (hv : i.commandWord = some v) (ho : outcomeOf (opField v) s = some o) :
    Runs i s (finish o (idleCycle (accept v s))) := by
  refine ⟨showRdata 0 (accept v s), exec_computing i v s hb hi hv, fun e rest hr hs hc => ?_⟩
  rw [step_eq_stepAt, stepAt_of_completion e rest (showRdata 0 (accept v s)) o hr rfl hc ho, hostCycle_eq, hs]
  rfl

/-- A command whose outcome is a fault records it and keeps RES and FLAG (40_command_protocol.md R73; 60_exceptions.md R146). -/
theorem runs_faulted {i : Instr} {v : Word} {s : State} {c : FaultCode} (hb : s.busy = false) (hi : Computing i)
    (hv : i.commandWord = some v) (ho : outcomeOf (opField v) s = some (.fault c)) : Runs i s (faulted v c s) :=
  finish_fault_accept v c s ▸ runs_finish hb hi hv ho

/-- A command whose outcome is a result leaves the word of that number in RES, which is the number itself: it fits
(40_command_protocol.md R73). -/
theorem runs_completed {i : Instr} {v : Word} {s : State} {r : Nat} {f : Bool} (hb : s.busy = false) (hi : Computing i)
    (hv : i.commandWord = some v) (ho : outcomeOf (opField v) s = some (.result r f)) :
    ∃ x : Word, x.toNat = r ∧ Runs i s (completed v x f s) := by
  have fits : r < 2 ^ Config.W := outcomeOf_fits Config.default_width_allowed _ s r f ho
  exact ⟨BitVec.ofNat Config.W r, Nat.mod_eq_of_lt fits, finish_result_accept v r f s ▸ runs_finish hb hi hv ho⟩

/-! ### the Euclidean algorithm and GCD -/

/-- The Euclidean step (41_number_theory.md R92). -/
theorem euclidGcd_step (a b : Nat) : euclidGcd a b = euclidGcd b (a % b) := by
  rw [euclidGcd_eq_gcd, euclidGcd_eq_gcd, Nat.gcd_comm a b, Nat.gcd_rec b a, Nat.gcd_comm]

/-- The value of `gcd` fits where both operands fit (41_number_theory.md R92). -/
theorem euclidGcd_le_max (a b : Nat) : euclidGcd a b ≤ max a b := by
  rw [euclidGcd_eq_gcd]
  rcases Nat.eq_zero_or_pos a with rfl | positive
  · rw [Nat.gcd_zero_left]
    exact le_max_right 0 b
  · exact (Nat.gcd_le_left b positive).trans (le_max_left a b)

/-- A common divisor of operands not both 0 is at most their `gcd` (41_number_theory.md R92). -/
theorem le_euclidGcd_of_dvd {a b d : Nat} (nonzero : ¬(a = 0 ∧ b = 0)) (ha : d ∣ a) (hb : d ∣ b) : d ≤ euclidGcd a b := by
  have positive : 0 < Nat.gcd a b := Nat.pos_of_ne_zero fun zero => nonzero (Nat.gcd_eq_zero_iff.1 zero)
  rw [euclidGcd_eq_gcd]
  exact Nat.le_of_dvd positive (Nat.dvd_gcd ha hb)

/-- Settles O21: the recursion computes the greatest common divisor, and the clauses are properties of that. -/
theorem euclideanRecursion : Obligations.EuclideanRecursion := by
  refine ⟨?base, fun a b _ => euclidGcd_step a b, rfl, ?left, ?symmetric, euclidGcd_le_max, fun a b nonzero =>
    ⟨?dvdLeft, ?dvdRight, fun _ => le_euclidGcd_of_dvd nonzero⟩⟩
  all_goals simp only [euclidGcd_eq_gcd]
  case base => exact Nat.gcd_zero_right
  case left => exact Nat.gcd_zero_left
  case symmetric => exact Nat.gcd_comm
  case dvdLeft => exact Nat.gcd_dvd_left a b
  case dvdRight => exact Nat.gcd_dvd_right a b

/-- The outcome of GCD (41_number_theory.md R93). -/
theorem gcdOutcome_eq (a b : Nat) : gcdOutcome a b = .result (Nat.gcd a b) (Nat.gcd a b == 1) := by
  rw [gcdOutcome, euclidGcd_eq_gcd, flagGcd]

/-- Settles O22: the outcome of GCD is a result for all operands, and its number is 1 exactly when the word in RES is. -/
theorem gcdComputesGcd : Obligations.GcdComputesGcd := by
  intro s hb
  obtain ⟨g, value, ran⟩ := runs_completed hb (.inr (.inl rfl)) rfl (congrArg some (gcdOutcome_eq s.opa.toNat s.opb.toNat))
  have flag : (Nat.gcd s.opa.toNat s.opb.toNat == 1) = (g == 1) := by
    rw [← value, Bool.eq_iff_iff, beq_iff_eq, beq_iff_eq]
    exact BitVec.toNat_inj (y := 1)
  exact ⟨g, value, flag ▸ ran⟩

/-! ### ISPRIME -/

/-- The tester answers by trial division up to the integer square root (41_number_theory.md R90). -/
theorem isPrime_iff_trialDivision (n : Nat) :
    isPrime n = true ↔ 1 < n ∧ ¬∃ d, 2 ≤ d ∧ d ≤ Nat.sqrt n ∧ n % d = 0 := by
  rw [← isqrt_eq_sqrt, ← hasTrialDivisor_iff]
  by_cases small : n ≤ 1
  · simp [isPrime, small]
  · simp [isPrime, small, Nat.lt_of_not_le small]

/-- With BUSY = 0 ISPRIME completes with the tester's answer in RES and FLAG (41_number_theory.md R90). -/
theorem runs_isprime (s : State) (hb : s.busy = false) :
    Runs .isprime s (completed 3 (if isPrime s.opa.toNat then 1 else 0) (isPrime s.opa.toNat) s) := by
  have outcome : outcomeOf (opField (3 : Word)) s = some (isprimeOutcome s.opa.toNat) := rfl
  obtain ⟨x, value, ran⟩ := runs_completed hb (.inr (.inr (.inl rfl))) rfl outcome
  have word : x = if isPrime s.opa.toNat then 1 else 0 := by
    apply BitVec.eq_of_toNat_eq
    rw [value]
    cases isPrime s.opa.toNat <;> rfl
  exact word ▸ ran

/-- Settles O23: the answer is the tester's. -/
theorem isprimeByTrialDivision : Obligations.IsprimeByTrialDivision := fun s hb =>
  ⟨isPrime s.opa.toNat, isPrime_iff_trialDivision _, runs_isprime s hb⟩

/-- Settles O24: the tester's answer is the mathematical definition's. -/
theorem isprimeDecidesPrimality : Obligations.IsprimeDecidesPrimality := by
  intro s hb
  have ran := runs_isprime s hb
  rw [← isPrime_iff_prime]
  cases h : isPrime s.opa.toNat <;> simpa [h] using ran

/-! ### MODINV -/

/-- For coprime operands the inverse is the only number below the modulus that meets its defining equation
(41_number_theory.md R94). -/
theorem inverse_iff_eq {a m x : Nat} (hm : 2 ≤ m) (hg : Nat.gcd a m = 1) (below : x < m) (inverse : a * x % m = 1) (y : Nat) :
    (y < m ∧ a * y % m = 1) ↔ y = x := by
  have unique : ∀ z, z < m → a * z % m = 1 → z = modinv a m := fun z hz equation =>
    modinv_unique a m z (by omega) hg hz (by rw [equation, Nat.mod_eq_of_lt hm])
  constructor
  · rintro ⟨hy, equation⟩
    rw [unique y hy equation, unique x below inverse]
  · rintro rfl
    exact ⟨below, inverse⟩

/-- Settles O20: the four cases of the outcome of MODINV, each delivered; the result is the one inverse. -/
theorem modinvComputesInverse : Obligations.ModinvComputesInverse := by
  intro s hb
  obtain ⟨zero, one, common, coprime⟩ := modinvOutcome_eq s.opa.toNat s.opb.toNat
  have hi : Computing (.modinv : Instr) := .inl rfl
  refine ⟨fun h => runs_faulted hb hi rfl (congrArg some (zero h)), fun h => ?one,
    fun hm hg => runs_faulted hb hi rfl (congrArg some (common hm hg)), fun hm hg => ?coprime⟩
  case one =>
    obtain ⟨x, value, ran⟩ := runs_completed hb hi rfl (congrArg some (one h))
    obtain rfl : x = 0 := BitVec.toNat_inj.1 value
    exact ran
  case coprime =>
    obtain ⟨r, below, inverse, outcome⟩ := coprime hm hg
    obtain ⟨x, rfl, ran⟩ := runs_completed hb hi rfl (congrArg some outcome)
    exact ⟨x, ran, inverse_iff_eq hm hg below inverse⟩

end Sys2Proof.Machine
end

section
/-! SUPPORT. The superincreasing sequence validator (42_superincreasing.md R110, R111): SUPCHK from its accept edge to its
completion. -/

namespace Sys2Proof.Machine

open Sys2Proof.Claims

/-- A command whose outcome is a yes-or-no answer completes with it in RES, as 1 or 0, and in FLAG
(40_command_protocol.md R73). -/
theorem runs_answered {i : Instr} {v : Word} {s : State} {p : Bool} (hb : s.busy = false) (hi : Computing i)
    (hv : i.commandWord = some v) (ho : outcomeOf (opField v) s = some (.result p.toNat p)) :
    Runs i s (completed v (if p then 1 else 0) p s) := by
  obtain ⟨x, value, ran⟩ := runs_completed hb hi hv ho
  have word : x = if p then 1 else 0 := by
    apply BitVec.eq_of_toNat_eq
    rw [value]
    cases p <;> rfl
  exact word ▸ ran

/-- With BUSY = 0 SUPCHK completes, whatever the bank holds, with the validator's answer in RES and FLAG
(42_superincreasing.md R111). -/
theorem runs_supchk (s : State) (hb : s.busy = false) :
    Runs .supchk s (completed 4 (if superincreasing s.priv then 1 else 0) (superincreasing s.priv) s) := by
  have outcome : outcomeOf (opField (4 : Word)) s =
      some (.result (superincreasing s.priv).toNat (superincreasing s.priv)) := rfl
  exact runs_answered hb (.inr (.inr (.inr (.inl rfl)))) rfl outcome

/-- Settles O25: the validator's answer is that of the exact-sum definition, in both cases. -/
theorem supchkDecidesSuperincreasing : Obligations.SupchkDecidesSuperincreasing := by
  intro s hb
  have ran := runs_supchk s hb
  rw [← superincreasing_iff]
  constructor
  · intro yes
    simpa [yes] using ran
  · intro no
    simpa [no] using ran

end Sys2Proof.Machine
end

section
/-! SUPPORT. The knapsack summer and the greedy decoder (43_transcoder.md R120 to R124): KSUM and GDEC from their accept edge to
their completion, then the round trip of one byte. -/

namespace Sys2Proof.Machine

open Sys2Proof.Claims

variable {W : Nat}

/-! ### KSUM -/

/-- The outcome of KSUM, its checks in the spec's order, on the sum as the statements write it (43_transcoder.md R121). -/
theorem ksumOutcome_eq (s : State W) : ksumOutcome s.opa.toNat s.pub =
    if 255 < s.opa.toNat then .fault .eOperand
    else if 2 ^ W ≤ selectedSum s then .fault .eOverflow
    else .result (selectedSum s) false := by
  rw [ksumOutcome, ksum_eq_selectedSum, flagKsum]

/-- Settles O26: the three cases of the outcome of KSUM, each delivered. -/
theorem ksumSumsSelectedElements : Obligations.KsumSumsSelectedElements := by
  intro s hb
  have hi : Computing (.ksum : Instr) := .inr (.inr (.inr (.inr (.inl rfl))))
  have outcome : outcomeOf (opField (5 : Word)) s = some (ksumOutcome s.opa.toNat s.pub) := rfl
  rw [ksumOutcome_eq] at outcome
  refine ⟨fun noByte => ?operand, fun byte large => ?overflow, fun byte fits => ?sum⟩
  case operand =>
    rw [if_pos noByte] at outcome
    exact runs_faulted hb hi rfl outcome
  all_goals rw [if_neg (Nat.not_lt.2 byte)] at outcome
  case overflow =>
    rw [if_pos large] at outcome
    exact runs_faulted hb hi rfl outcome
  case sum =>
    rw [if_neg (Nat.not_le.2 fits)] at outcome
    exact runs_completed hb hi rfl outcome

/-- Eight elements below `2 ^ (W - 3)` have a selected sum below `2 ^ W` (43_transcoder.md R121, corner cases). -/
theorem selectedSum_lt (hW : 3 ≤ W) (s : State W) (small : ∀ j : Fin 8, s.pub[j].toNat < 2 ^ (W - 3)) :
    selectedSum s < 2 ^ W := by
  calc selectedSum s
      _ < ∑ _j : Fin 8, 2 ^ (W - 3) := by
        refine Finset.sum_lt_sum_of_nonempty Finset.univ_nonempty fun j _ => ?_
        split_ifs
        · exact small j
        · exact Nat.two_pow_pos _
      _ = 2 ^ W := by
        rw [Finset.sum_const, Finset.card_univ, Fintype.card_fin, smul_eq_mul, show 8 = 2 ^ 3 from rfl, ← pow_add]
        congr 1
        omega

/-- Settles O27: the sum fits, so KSUM completes with it. -/
theorem ksumOfSmallElementsFits : Obligations.KsumOfSmallElementsFits := fun s hb byte small =>
  (ksumSumsSelectedElements s hb).2.2 byte (selectedSum_lt (by decide) s small)

/-! ### GDEC -/

/-- With BUSY = 0 GDEC whose outcome is a result completes with its number in RES (43_transcoder.md R123). -/
theorem runs_gdec {s : State} {byte : Nat} {flag : Bool} (hb : s.busy = false)
    (outcome : gdecOutcome s.opa.toNat s.invmult.toNat s.modulus.toNat s.priv = .result byte flag) :
    ∃ x : Word, x.toNat = byte ∧ Runs .gdec s (completed 6 x flag s) :=
  runs_completed hb (.inr (.inr (.inr (.inr (.inr rfl))))) rfl (congrArg some outcome)

/-- Settles O28: `greedyRest` is what remains before each comparison. -/
theorem gdecDecodesGreedily : Obligations.GdecDecodesGreedily := by
  intro s hb
  refine ⟨fun zero => ?zero, fun nonzero => ?greedy⟩
  case zero =>
    have outcome : gdecOutcome s.opa.toNat s.invmult.toNat s.modulus.toNat s.priv = .fault .eZeroMod := if_pos zero
    exact runs_faulted hb (.inr (.inr (.inr (.inr (.inr rfl))))) rfl (congrArg some outcome)
  case greedy =>
    obtain ⟨_, bits, below, outcome⟩ :=
      gdecOutcome_greedy s.opa.toNat s.invmult.toNat s.modulus.toNat s.priv nonzero
    obtain ⟨byte, rfl, ran⟩ := runs_gdec hb outcome
    exact ⟨greedyRest s.priv _, byte, greedyRest_eight _ _, greedyRest_fin _ _, bits, below, ran⟩

/-! ### the greedy scan of a knapsack sum -/

/-- The lanes of the elements before element `n` of a knapsack sum, added up (43_transcoder.md R120). -/
def ksumBelow (b : Nat) (p : Bank W) (n : Nat) : Nat := ∑ k : Fin 8, if k.val < n then ksumLane b p k else 0

theorem ksumBelow_zero (b : Nat) (p : Bank W) : ksumBelow b p 0 = 0 := by
  simp [ksumBelow]

theorem ksumBelow_eight (b : Nat) (p : Bank W) : ksumBelow b p 8 = ksum b p := by
  simp [ksumBelow, ksum_eq_sum]

theorem ksumBelow_succ (b : Nat) (p : Bank W) (j : Fin 8) :
    ksumBelow b p (j.val + 1) = ksumBelow b p j.val + ksumLane b p j := by
  have lane : ksumLane b p j = ∑ k : Fin 8, if k = j then ksumLane b p k else 0 := by simp
  rw [lane, ksumBelow, ksumBelow, ← Finset.sum_add_distrib]
  refine Finset.sum_congr rfl fun k _ => ?_
  rcases lt_trichotomy k j with lt | rfl | gt
  · simp [lt.ne, Nat.lt_succ_of_lt lt, Fin.lt_def.1 lt]
  · simp
  · have later : ¬k.val < j.val + 1 := by omega
    simp [gt.ne', later, Nat.not_lt_of_gt gt]

theorem ksumLane_le (b : Nat) (p : Bank W) (j : Fin 8) : ksumLane b p j ≤ element p j :=
  (Nat.mul_le_mul_left _ (Bool.toNat_le _)).trans_eq (mul_one _)

/-- In a superincreasing bank every element exceeds the lanes before it (42_superincreasing.md R110). -/
theorem ksumBelow_lt_element (b : Nat) (s : State W) (increasing : ∀ i : Fin 8, privSumBefore s i < s.priv[i].toNat)
    (j : Fin 8) : ksumBelow b s.priv j.val < element s.priv j := by
  refine lt_of_le_of_lt (Finset.sum_le_sum fun k _ => ?_) (increasing j)
  by_cases before : k < j
  · rw [if_pos before, if_pos (Fin.lt_def.1 before)]
    exact ksumLane_le b s.priv k
  · rw [if_neg before, if_neg (mt Fin.lt_def.2 before)]

/-- Where every element exceeds the lanes before it, an element fits into the lanes up to its own exactly when its bit is
set (43_transcoder.md R122). -/
theorem element_le_ksumBelow_succ (b : Nat) (p : Bank W) (j : Fin 8) (larger : ksumBelow b p j.val < element p j) :
    element p j ≤ ksumBelow b p (j.val + 1) ↔ bitAt b j = true := by
  rw [ksumBelow_succ, ksumLane]
  cases bitAt b j <;> simp [larger]

section
variable (b : Nat) (p : Bank W) (larger : ∀ j : Fin 8, ksumBelow b p j.val < element p j)
include larger

/-- The greedy scan of a knapsack sum takes off the lanes one by one (43_transcoder.md R122). -/
theorem greedyRest_ksum {n : Nat} (hn : n ≤ 8) : greedyRest p (ksum b p) n = ksumBelow b p n := by
  induction hn using Nat.decreasingInduction with
  | self => rw [greedyRest_eight, ksumBelow_eight]
  | of_succ k hk ih =>
    have bit := element_le_ksumBelow_succ b p ⟨k, hk⟩ (larger ⟨k, hk⟩)
    have succ := ksumBelow_succ b p ⟨k, hk⟩
    have rest := greedyRest_fin p (ksum b p) ⟨k, hk⟩
    simp only [ih, bit] at rest
    rw [rest, succ, ksumLane]
    cases bitAt b ⟨k, hk⟩ <;> simp

/-- The greedy scan of a knapsack sum finds the bits of its byte (43_transcoder.md R122). -/
theorem greedyBit_ksum (j : Fin 8) : greedyBit p (ksum b p) j = bitAt b j := by
  have before : greedyRest p (ksum b p) (j.val + 1) = ksumBelow b p (j.val + 1) := greedyRest_ksum b p larger j.isLt
  simp only [greedyBit, before, element_le_ksumBelow_succ b p j (larger j), Bool.decide_eq_true]

end

/-- Two bytes with the same bits are the same (20_memory.md R50). -/
theorem byte_eq_of_bitAt {a b : Nat} (ha : a < 2 ^ 8) (hb : b < 2 ^ 8) (same : ∀ j : Fin 8, bitAt a j = bitAt b j) : a = b := by
  refine Nat.eq_of_testBit_eq fun i => ?_
  by_cases low : i < 8
  · have position : 7 - (7 - i) = i := by omega
    simpa only [bitAt, position] using same ⟨7 - i, by omega⟩
  · have above : 2 ^ 8 ≤ 2 ^ i := Nat.pow_le_pow_right (by decide) (by omega)
    rw [Nat.testBit_lt_two_pow (ha.trans_le above), Nat.testBit_lt_two_pow (hb.trans_le above)]

/-- A value that reduces to the knapsack sum of a byte over PRIV is decoded to that byte with nothing left over
(43_transcoder.md R122, R123). -/
theorem gdecOutcome_ksum {b c m q : Nat} {p : Bank W} (hq : q ≠ 0) (hb : b ≤ 255) (reduced : c * m % q = ksum b p)
    (larger : ∀ j : Fin 8, ksumBelow b p j.val < element p j) : gdecOutcome c m q p = .result b true := by
  obtain ⟨byte, bits, below, outcome⟩ := gdecOutcome_greedy c m q p hq
  rw [reduced] at bits outcome
  have same : byte = b :=
    byte_eq_of_bitAt below (by omega) fun j => (bits j).trans (greedyBit_ksum b p larger j)
  rw [outcome, same, greedyRest_ksum b p larger (Nat.zero_le 8), ksumBelow_zero]
  rfl

/-! ### the round trip -/

/-- The inverse multiplier undoes the scaling of the public key, lane by lane (43_transcoder.md R122, R124). -/
theorem ksum_pub_mul_modEq (b r m q : Nat) (pub priv : Bank W) (inverse : r * m % q = 1)
    (scaled : ∀ j : Fin 8, element pub j = r * element priv j % q) : ksum b pub * m ≡ ksum b priv [MOD q] := by
  have unit : r * m ≡ 1 [MOD q] := inverse ▸ (Nat.mod_modEq (r * m) q).symm
  rw [ksum_eq_sum, ksum_eq_sum, Finset.sum_mul]
  refine Nat.ModEq.sum fun j _ => ?_
  calc ksumLane b pub j * m
      _ = r * element priv j % q * ((bitAt b j).toNat * m) := by rw [ksumLane, scaled, mul_assoc]
      _ ≡ r * element priv j * ((bitAt b j).toNat * m) [MOD q] := (Nat.mod_modEq _ _).mul_right _
      _ = r * m * ksumLane b priv j := by rw [ksumLane]; ring
      _ ≡ 1 * ksumLane b priv j [MOD q] := unit.mul_right _
      _ = ksumLane b priv j := one_mul _

/-- A knapsack sum over PRIV is at most the sum of the bank (43_transcoder.md R122). -/
theorem ksum_priv_le_privSum (b : Nat) (s : State W) : ksum b s.priv ≤ privSum s :=
  ksum_eq_sum b s.priv ▸ Finset.sum_le_sum fun j _ => ksumLane_le b s.priv j

/-- The outcome of GDEC on the selected sum of a byte, for a valid key pair (43_transcoder.md R124). -/
theorem gdecOutcome_selectedSum (s : State W) (r : Nat) (increasing : ∀ i : Fin 8, privSumBefore s i < s.priv[i].toNat)
    (fits : privSum s < s.modulus.toNat) (inverse : r * s.invmult.toNat % s.modulus.toNat = 1)
    (scaled : ∀ j : Fin 8, s.pub[j].toNat = r * s.priv[j].toNat % s.modulus.toNat) (byte : s.opa.toNat ≤ 255) :
    gdecOutcome (selectedSum s) s.invmult.toNat s.modulus.toNat s.priv = .result s.opa.toNat true := by
  have reduced : selectedSum s * s.invmult.toNat % s.modulus.toNat = ksum s.opa.toNat s.priv := by
    rw [← ksum_eq_selectedSum, ksum_pub_mul_modEq _ r _ _ s.pub s.priv inverse scaled]
    exact Nat.mod_eq_of_lt ((ksum_priv_le_privSum _ s).trans_lt fits)
  exact gdecOutcome_ksum (Nat.ne_zero_of_lt fits) byte reduced (ksumBelow_lt_element _ s increasing)

/-- With BUSY = 0 a write of OPA stores the word (20_memory.md R44, case 6). -/
theorem exec_wr_opa (c : Word) (s : State) (hb : s.busy = false) :
    exec (.wr 0x04 c) s = .next { s with opa := c, rdata := 0 } := by
  rw [exec_wr, show (0x04 : Index) = Reg.opa.index from rfl, hostWrite_data .opa c s hb rfl rfl]
  rfl

/-- Settles O29: KSUM leaves the selected sum in RES, and GDEC of that sum finds the byte. -/
theorem roundTripOfOneByte : Obligations.RoundTripOfOneByte := by
  intro s r hb increasing fits inverse scaled byte small
  obtain ⟨c, sum, summed⟩ := (ksumSumsSelectedElements s hb).2.2 byte small
  have outcome := gdecOutcome_selectedSum s r increasing fits inverse scaled byte
  rw [← sum] at outcome
  obtain ⟨x, value, decoded⟩ := runs_gdec (s := { completed 5 c false s with opa := c }) rfl outcome
  obtain rfl : x = s.opa := BitVec.eq_of_toNat_eq value
  exact ⟨c, summed, exec_wr_opa c _ rfl, decoded⟩

end Sys2Proof.Machine
end

section
/-! SUPPORT. The faults of the block (60_exceptions.md): the invariant along every run, what each edge does to the fault record,
and the interrupt line. -/

namespace Sys2Proof.Machine

open Sys2Proof.Claims

variable {W : Nat}

/-! ### the invariant along a run -/

/-- Settles O34: the machine is the block at the default width. -/
theorem stepKeepsInv : Obligations.StepKeepsInv := fun s t inv h =>
  stepKeepsInvAtEveryWidth Config.W Config.default_width_allowed s t inv ((step_eq_stepAt s).symm.trans h)

/-- From a legal state the next edge answers a next state (40_command_protocol.md R76; 70_reset_and_hazards.md R183). -/
theorem step_answers (s : State) (inv : s.Inv) : ∃ t, step s = .next t := by
  cases hr : (nextEdge s).rst with
  | true => exact ⟨resetCycle (nextEdge s) (dropEdge s), by rw [step, clockEdge, if_pos hr]⟩
  | false =>
    rw [step_eq s hr]
    cases hq : s.busy && (nextEdge s).completes with
    | false => exact ⟨_, enginePart_of_no_completion _ _ _ hq⟩
    | true =>
      obtain ⟨hb, hc⟩ := Bool.and_eq_true_iff.1 hq
      obtain ⟨o, ho⟩ := outcomeOf_isSome (hostCycle (nextEdge s) (dropEdge s)) (hostCycle_inv _ _ inv)
        (hostCycle_keeps_busy _ _ hb)
      exact ⟨_, enginePart_of_completion _ _ _ o hb hc ho⟩

/-- Settles O36: from a legal state each step answers, and the state it answers is legal. -/
theorem blockNeverStops : Obligations.BlockNeverStops := by
  intro s inv k
  induction k generalizing s with
  | zero => exact ⟨s, rfl, inv⟩
  | succ k ih =>
    obtain ⟨t, stepped⟩ := step_answers s inv
    rw [run_succ_of_step k s t stepped]
    exact ih t (stepKeepsInv s t inv stepped)

/-! ### writes that only record a fault -/

/-- An instruction that is a write does the write cycle of its access (20_memory.md R44; 30_encoding.md R66). -/
theorem exec_of_write (i : Instr) (s : State) (hw : i.access.we = true) :
    exec i s = .next { hostWrite i.access.addr i.access.wdata s with rdata := 0 } := by
  rw [exec_eq_portCycle, portCycle, if_pos hw]
  rfl

/-- Settles O14: while BUSY = 1 the host's write is dropped, and a read changes `rdata` alone. -/
theorem busyWriteDropped : Obligations.BusyWriteDropped := by
  refine ⟨fun s i hb hw => ?dropped, fun s idx => ⟨_, exec_rd idx s, rfl, rfl⟩⟩
  case dropped => rw [exec_of_write i s hw, hostWrite_busy _ _ s hb, raise_eq_recorded]

/-- Settles O15: these indices are those of case 3 of a host write. -/
theorem reservedOrReadOnlyWrite : Obligations.ReservedOrReadOnlyWrite := by
  intro s idx hidx
  have listed : idx = 0x01 ∨ idx = 0x03 ∨ (0x08 ≤ idx.toNat ∧ idx.toNat ≤ 0x0F) := by
    rcases hidx with h | h | h | h
    · exact .inr (.inl h)
    · exact .inr (.inr (by omega))
    · exact .inl h
    · exact .inr (.inr (by simp [h]))
  refine ⟨fun hb v => ?written, exec_rd idx s⟩
  case written => rw [exec_wr, hostWrite_eq_afterWrite, afterWrite, if_neg (by simp [hb]), if_pos listed]

/-- With BUSY = 0 and KEYLOCK = 1 a write to key material only records E_LOCKED (60_exceptions.md R145). -/
theorem hostWrite_key_locked (idx : Index) (v : Word W) (s : State W) (hb : s.busy = false) (hk : s.keylock = true)
    (hidx : idx = 0x06 ∨ idx = 0x07 ∨ 0x10 ≤ idx.toNat) : hostWrite idx v s = recorded .eLocked s := by
  have writable : ¬(idx = 0x01 ∨ idx = 0x03 ∨ (0x08 ≤ idx.toNat ∧ idx.toNat ≤ 0x0F)) := by
    rcases hidx with rfl | rfl | h
    · decide
    · decide
    · rintro (rfl | rfl | ⟨-, below⟩)
      · simp at h
      · simp at h
      · omega
  rw [hostWrite_eq_afterWrite, afterWrite, if_neg (by simp [hb]), if_neg writable, if_pos ⟨hk, hidx⟩]

/-- A write to CMD, CTRL, OPA or OPB does the same whatever KEYLOCK is, and can only set KEYLOCK (10_state.md R18;
60_exceptions.md R145). -/
theorem hostWrite_whatever_keylock (idx : Index) (v : Word W) (s : State W)
    (hidx : idx = 0x00 ∨ idx = 0x02 ∨ idx = 0x04 ∨ idx = 0x05) :
    ∃ (t : State W) (sets : Bool), ∀ k, hostWrite idx v { s with keylock := k } = { t with keylock := k || sets } := by
  rcases Bool.dichotomy s.busy with hb | hb
  · rcases hidx with rfl | rfl | rfl | rfl
    · refine ⟨afterCommandWord v s, false, fun k => ?_⟩
      rw [hostWrite_cmd v { s with keylock := k } hb, Bool.or_false]
      unfold afterCommandWord
      split_ifs <;> rfl
    · exact ⟨{ s with ie := v.getLsbD 0 }, v.getLsbD 1, fun k => hostWrite_ctrl v { s with keylock := k } hb⟩
    · exact ⟨{ s with opa := v }, false, fun k =>
        (Bool.or_false k).symm ▸ hostWrite_data .opa v { s with keylock := k } hb rfl rfl⟩
    · exact ⟨{ s with opb := v }, false, fun k =>
        (Bool.or_false k).symm ▸ hostWrite_data .opb v { s with keylock := k } hb rfl rfl⟩
  · refine ⟨recorded .eBusy s, false, fun k => ?_⟩
    rw [hostWrite_busy idx v { s with keylock := k } hb, raise_eq_recorded, Bool.or_false]
    rfl

/-- Settles O16: key material is locked, and a write to any other register does the same with KEYLOCK = 0 and KEYLOCK = 1. -/
theorem lockedKeyWrite : Obligations.LockedKeyWrite := by
  refine ⟨fun s idx v hb hk hidx => ?locked, fun s idx v hidx => ?unaffected⟩
  case locked => rw [exec_wr, hostWrite_key_locked idx v s hb hk hidx]
  case unaffected =>
    obtain ⟨t, sets, same⟩ := hostWrite_whatever_keylock idx v s hidx
    exact ⟨{ t with rdata := 0 }, false || sets, by rw [exec_wr, same], by rw [exec_wr, same, Bool.true_or]⟩

/-! ### the fault record -/

/-- The faults `fs`, raised in this order between `s` and `t`, and no ACK: a fault already recorded is kept, else the first of
`fs` is recorded (60_exceptions.md R147, R149). -/
structure Records (fs : List FaultCode) (s t : State W) : Prop where
  kept : s.err = true → t.err = true ∧ t.ecode = s.ecode
  first : s.err = false → s.ecode = none → t.ecode = fs.head? ∧ (t.err = true ↔ fs ≠ [])

theorem records_nil {s t : State W} (err : t.err = s.err) (ecode : t.ecode = s.ecode) : Records [] s t where
  kept he := ⟨err.trans he, ecode⟩
  first he hn := ⟨ecode.trans hn, by simp [err, he]⟩

/-- The model's exception entry raises its one fault (60_exceptions.md R147, R151). -/
theorem records_raise (c : FaultCode) (s : State W) : Records [c] s (raise c s) where
  kept he := by simp [he]
  first he _ := by simp [he]

theorem Records.append {fs gs : List FaultCode} {s t u : State W} (h : Records fs s t) (h' : Records gs t u) :
    Records (fs ++ gs) s u where
  kept he := by
    obtain ⟨err, ecode⟩ := h.kept he
    obtain ⟨err', ecode'⟩ := h'.kept err
    exact ⟨err', ecode'.trans ecode⟩
  first he hn := by
    obtain ⟨ecode, err⟩ := h.first he hn
    cases fs with
    | nil => exact h'.first (by simpa using err) ecode
    | cons c fs =>
      obtain ⟨err', ecode'⟩ := h'.kept (err.2 (by simp))
      exact ⟨ecode'.trans ecode, by simp [err']⟩

/-- What `rdata` shows is no part of the record (log 5). -/
theorem Records.showRdata {fs : List FaultCode} {s t : State W} (h : Records fs s t) (v : Word W) :
    Records fs s (showRdata v t) := ⟨h.kept, h.first⟩

/-- A word other than ACK's written to CMD raises E_ILLEGAL_CMD exactly when it is no command (60_exceptions.md R143). -/
theorem records_issue (v : Word W) (s : State W) (notAck : v ≠ 7) :
    Records (if legalCommand v then [] else [.eIllegalCmd]) s (issue v s) := by
  have legal := legalCommand_iff v
  rcases issue_cases v s with ⟨low, high, accepted⟩ | ⟨seven, -⟩ | ⟨illegal, raised⟩
  · rw [accepted, if_pos (legal.2 ⟨low, by omega⟩)]
    exact records_nil rfl rfl
  · have number : v = BitVec.ofNat W v.toNat := by simp
    exact absurd (number.trans (congrArg (BitVec.ofNat W) seven)) notAck
  · rw [raised, if_neg fun h => by have := legal.1 h; omega]
    exact records_raise _ s

/-- Index 0 is CMD's alone (20_memory.md R42). -/
theorem index_eq_zero_iff (r : Reg) : r.index = 0 ↔ r = .cmd := by
  refine ⟨fun h => ?_, fun h => h ▸ rfl⟩
  have same : regOf r.index = regOf Reg.cmd.index := congrArg regOf h
  rwa [regOf_index, regOf_index, Option.some.injEq] at same

/-- A host write other than ACK raises the fault of its access (60_exceptions.md R142 to R145, R148). -/
theorem records_hostWrite (e : Edge W) (s : State W) (hw : (e.sel && e.we) = true)
    (notAck : s.busy = false → e.addr = 0 → e.wdata ≠ 7) :
    Records (accessFault e s).toList s (hostWrite e.addr e.wdata s) := by
  simp only [accessFault, hostWrite, hw, Bool.not_true, Bool.false_eq_true, if_false]
  cases hb : s.busy with
  | true => exact records_raise _ s
  | false =>
    simp only [Bool.false_eq_true, if_false]
    cases hr : regOf e.addr with
    | none => exact records_raise _ s
    | some r =>
      have hi : e.addr = r.index := (index_of_regOf e.addr r hr).symm
      by_cases hro : r.readOnly = true
      · simp only [if_pos hro]
        exact records_raise _ s
      by_cases hl : (r.lockable && s.keylock) = true
      · simp only [if_neg hro, if_pos hl]
        exact records_raise _ s
      simp only [if_neg hro, if_neg hl]
      cases r with
      | cmd =>
        have issued := records_issue e.wdata s (notAck hb hi)
        cases hlegal : legalCommand e.wdata <;> simpa [hi, hlegal, Reg.index] using issued
      | status | res => exact absurd rfl hro
      | ctrl | opa | opb | modulus | invmult | priv j | pub j =>
        rw [if_neg fun h => by cases (index_eq_zero_iff _).1 (hi.symm.trans h.1)]
        exact records_nil rfl rfl

/-- The host's part of an edge, when it is no ACK, raises the fault of its access (60_exceptions.md R148). -/
theorem records_hostCycle (e : Edge W) (s : State W)
    (notAck : (e.sel && e.we) = true → s.busy = false → e.addr = 0 → e.wdata ≠ 7) :
    Records (accessFault e s).toList s (hostCycle e s) := by
  cases hw : e.sel && e.we with
  | true =>
    obtain ⟨hsel, hwe⟩ := Bool.and_eq_true_iff.1 hw
    rw [hostCycle_eq, if_pos hsel, if_pos hwe]
    exact (records_hostWrite e s hw (notAck hw)).showRdata 0
  | false =>
    have noFault : accessFault e s = none := by rw [accessFault, hw]; rfl
    rw [noFault, hostCycle_eq]
    cases hsel : e.sel with
    | false => exact records_nil rfl rfl
    | true =>
      have hwe : e.we = false := by simpa [hsel] using hw
      rw [hwe]
      exact records_nil rfl rfl

/-- The fault an outcome is, if it is one (40_command_protocol.md R73). -/
def CmdOutcome.code? : CmdOutcome → Option FaultCode
  | .result _ _ => none
  | .fault c => some c

/-- A completion raises the fault its outcome is (60_exceptions.md R146). -/
theorem records_finish (o : CmdOutcome) (s : State W) : Records o.code?.toList s (finish o s) := by
  cases o with
  | result r f => exact records_nil rfl rfl
  | fault c => exact ⟨(records_raise c s).kept, (records_raise c s).first⟩

theorem completionFault_of_no_completion (e : Edge W) (s : State W) (h : (s.busy && e.completes) = false) :
    completionFault e s = none := by
  rw [completionFault, h]
  rfl

theorem completionFault_of_completion (e : Edge W) (s : State W) (o : CmdOutcome) (hb : s.busy = true)
    (hc : e.completes = true) (ho : outcomeOf (opField s.cmd) s = some o) : completionFault e s = o.code? := by
  rw [completionFault, hb, hc, ho]
  cases o <;> rfl

/-- An edge with neither a reset nor an accepted ACK raises the faults of `raisedAt`, the write's before the completion's
(60_exceptions.md R149). -/
theorem records_step (s t : State) (h : step s = .next t) (hr : (nextEdge s).rst = false) (notAck : acksAt s = false) :
    Records (raisedAt s) s t := by
  have host : Records (accessFault (nextEdge s) s).toList s (hostCycle (nextEdge s) (dropEdge s)) := by
    obtain ⟨kept, first⟩ := records_hostCycle (nextEdge s) (dropEdge s) fun hw hb ha hv => by
      obtain ⟨hsel, hwe⟩ := Bool.and_eq_true_iff.1 hw
      simp [acksAt, hsel, hwe, show s.busy = false from hb, ha, hv] at notAck
    exact ⟨kept, first⟩
  rw [raisedAt, if_neg (by simp [hr])]
  rcases step_cases s t h with ⟨reset, -⟩ | ⟨-, quiet, rfl⟩ | ⟨-, hb, hc, o, ho, rfl⟩
  · cases hr.symm.trans reset
  · rw [completionFault_of_no_completion _ s quiet]
    exact host.append (records_nil rfl rfl)
  · have outcome : outcomeOf (opField s.cmd) s = some o := (outcomeOf_hostCycle _ (dropEdge s) hb).symm.trans ho
    rw [completionFault_of_completion _ s o hb hc outcome]
    exact host.append (records_finish o _)

/-- An edge that accepts ACK clears the fault record (40_command_protocol.md R74). -/
theorem step_ack (s t : State) (h : step s = .next t) (hr : (nextEdge s).rst = false) (ack : acksAt s = true) :
    t.err = false ∧ t.ecode = none := by
  simp only [acksAt, Bool.and_eq_true, Bool.not_eq_true', beq_iff_eq] at ack
  obtain ⟨⟨⟨⟨hb, hsel⟩, hwe⟩, ha⟩, hv⟩ := ack
  have cleared : hostCycle (nextEdge s) (dropEdge s) = showRdata 0 (acknowledge 7 (dropEdge s)) := by
    rw [hostCycle_eq, if_pos hsel, if_pos hwe, ha, hv, writeCycle, hostWrite_cmd 7 (dropEdge s) hb]
    rfl
  rw [step_eq s hr, enginePart_of_no_completion _ _ _ (by simp [hb]), cleared] at h
  cases h
  exact ⟨rfl, rfl⟩

/-- Settles O38: ACK clears the record; every other edge without reset raises its faults in order, the first of them kept. -/
theorem firstFaultKept : Obligations.FirstFaultKept := by
  intro s t inv h hr
  refine ⟨step_ack s t h hr, fun notAck => ?kept, fun notAck he => ?first⟩
  case kept => exact (records_step s t h hr notAck).kept
  case first => exact (records_step s t h hr notAck).first he (inv.1.1 he)

/-- From a legal state without a fault recorded, a step that raises none records none (60_exceptions.md R147). -/
theorem step_records_nothing (s t : State) (inv : s.Inv) (he : s.err = false) (none_raised : raisedAt s = [])
    (h : step s = .next t) : t.err = false := by
  cases hr : (nextEdge s).rst with
  | true =>
    rcases step_cases s t h with ⟨-, rfl⟩ | ⟨listed, -⟩ | ⟨listed, -⟩
    · rfl
    all_goals cases hr.symm.trans listed
  | false =>
    obtain ⟨acked, -, recorded⟩ := firstFaultKept s t inv h hr
    cases hack : acksAt s with
    | true => exact (acked hack).1
    | false => simpa [none_raised] using (recorded hack he).2

/-- Settles O44: no step of the run records a fault, and a legal state with ERR = 0 has no code. -/
theorem safeRunRecordsNothing : Obligations.SafeRunRecordsNothing := by
  intro k
  induction k with
  | zero =>
    intro s t inv he _ ran
    cases ran
    exact ⟨he, inv.1.1 he⟩
  | succ k ih =>
    rintro s t inv he ⟨none_raised, u, stepped, safe⟩ ran
    rw [run_succ_of_step k s u stepped] at ran
    exact ih u t (stepKeepsInv s u inv stepped) (step_records_nothing s u inv he none_raised stepped) safe ran

/-- Settles O39: the host's part comes first, so of the faults of the edge E_BUSY is the first, and the completion after it
delivers the outcome. -/
theorem writeSharesEdgeWithCompletion : Obligations.WriteSharesEdgeWithCompletion := by
  intro s e rest inv hb he hr hs hw hc
  obtain ⟨o, ho⟩ := outcomeOf_isSome s inv hb
  have stepped : step { s with edges := e :: rest } = .next { finish o (hostCycle e s) with edges := rest } :=
    (step_eq_stepAt _).trans (stepAt_of_completion e rest s o hr hb hc ho)
  have notAck : acksAt { s with edges := e :: rest } = false := by simp [acksAt, hb]
  have busy : accessFault e { s with edges := e :: rest } = some .eBusy := by simp [accessFault, hs, hw, hb]
  have raised : raisedAt { s with edges := e :: rest } =
      .eBusy :: (completionFault e { s with edges := e :: rest }).toList := by
    show (if e.rst then [] else (accessFault e _).toList ++ _) = _
    rw [hr, busy]
    rfl
  obtain ⟨-, -, recorded⟩ := firstFaultKept { s with edges := e :: rest } _ inv stepped hr
  obtain ⟨ecode, err⟩ := recorded notAck he
  obtain ⟨hostRes, hostFlag, -⟩ := hostCycle_frame e s
  refine ⟨_, stepped, rfl, rfl, err.2 (by simp [raised]), ecode.trans (by simp [raised]), fun c fault => ?fault,
    fun r f result => ?result⟩
  case fault =>
    obtain rfl : o = .fault c := Option.some.inj (ho.symm.trans fault)
    obtain ⟨res, flag⟩ := finish_fault_frame c (hostCycle e s)
    exact ⟨res.trans hostRes, flag.trans hostFlag⟩
  case result =>
    obtain rfl : o = .result r f := Option.some.inj (ho.symm.trans result)
    exact finish_result r f (hostCycle e s) (outcomeOf_fits Config.default_width_allowed _ s r f result)

/-! ### the interrupt line -/

/-- With BUSY = 0 every command answers a state with DONE = 0 (40_command_protocol.md R70, R74). -/
theorem exec_command_done (i : Instr) (s : State) (hb : s.busy = false) (hi : Computing i ∨ i = .ack) :
    ∃ t, exec i s = .next t ∧ t.done = false := by
  rcases hi with hi | rfl
  · obtain ⟨v, hv⟩ : ∃ v, i.commandWord = some v := by
      rcases hi with rfl | rfl | rfl | rfl | rfl | rfl <;> exact ⟨_, rfl⟩
    exact ⟨_, exec_computing i v s hb hi hv, rfl⟩
  · exact ⟨_, exec_ack s hb, rfl⟩

/-- Settles O42: a completion sets DONE and leaves IE, a command at rest clears DONE, and a write of CTRL gives IE. -/
theorem interruptLine : Obligations.InterruptLine := by
  refine ⟨fun _ => rfl, fun s t _ hb hr hc h => ?pending, fun s i hb hi => ?cleared, fun s v hb bit => ?masked⟩
  case pending =>
    rcases step_cases s t h with ⟨reset, -⟩ | ⟨-, quiet, -⟩ | ⟨-, -, -, o, -, rfl⟩
    · cases hr.symm.trans reset
    · simp [hb, hc] at quiet
    · have ie := (hostCycle_staysInFlight (nextEdge s) (dropEdge s) hb).ie
      exact ⟨rfl, (finish_ie o _).trans ie⟩
  case cleared =>
    obtain ⟨t, ran, done⟩ := exec_command_done i s hb hi
    exact ⟨t, ran, done, by rw [irq, done, Bool.false_and]⟩
  case masked =>
    refine ⟨_, exec_wr 0x02 v s, ?_⟩
    rw [hostWrite_ctrl v s hb]
    exact ⟨(congrArg (s.done && ·) bit).trans (Bool.and_false _), rfl⟩

end Sys2Proof.Machine
end

section
/-! SUPPORT. Reset and hazards (70_reset_and_hazards.md R170 to R183): a reset edge, locked key material along a run, the end of a
command in flight, and the commands on the reset state. -/

namespace Sys2Proof.Machine

open Sys2Proof.Claims

variable {W : Nat}

/-! ### a reset edge -/

/-- At an edge with `rst = 1` the step is the reset and nothing else (70_reset_and_hazards.md R170). -/
theorem step_of_reset (s : State) (hr : (nextEdge s).rst = true) :
    step s = .next (resetCycle (nextEdge s) (dropEdge s)) := by
  rw [step, clockEdge, if_pos hr]

/-- The output `rdata` of a cycle, by the index map (20_memory.md R41, R42). -/
theorem portRdata_eq_portView (e : Edge W) (s : State W) :
    portRdata e s = if e.sel = true ∧ e.we = false then portView e.addr s else 0 := by
  simp [portRdata, regRead_eq_portView]

/-- Settles O40: the reset cycle writes every register, and its `rdata` is that of the state before it. -/
theorem resetOverridesAll : Obligations.ResetOverridesAll := by
  intro s e rest hr
  rw [step_of_reset { s with edges := e :: rest } hr, resetCycle, portRdata_eq_portView]
  rfl

/-! ### locked key material -/

/-- The next edge of a state is no reset when none of the edges listed for its next steps is: past the list no edge resets
(log 4). -/
theorem nextEdge_rst_of_noReset {k : Nat} {s : State W} (h : NoReset (s.edges.take (k + 1))) : (nextEdge s).rst = false := by
  rw [nextEdge]
  cases hl : s.edges with
  | nil => rfl
  | cons e rest => exact h e (by simp [hl])

/-- A step takes one edge off the list (log 2). -/
theorem step_edges (s t : State) (h : step s = .next t) : t.edges = s.edges.tail := by
  obtain ⟨-, -, host⟩ := hostCycle_frame (nextEdge s) (dropEdge s)
  rcases step_cases s t h with ⟨-, rfl⟩ | ⟨-, -, rfl⟩ | ⟨-, -, -, o, -, rfl⟩
  · rfl
  · exact host
  · exact (finish_edges o _).trans host

/-- What every step without reset keeps holds along every run without reset. -/
theorem run_keeps (P : State → Prop) (keeps : ∀ s t, (nextEdge s).rst = false → step s = .next t → P s → P t) (k : Nat) :
    ∀ s t, NoReset (s.edges.take k) → run k s = .next t → P s → P t := by
  induction k with
  | zero =>
    intro s t _ ran holds
    cases ran
    exact holds
  | succ k ih =>
    intro s t noReset ran holds
    obtain ⟨u, stepped, ran⟩ := andThen_next _ _ _ ran
    have later : NoReset (u.edges.take k) := by
      intro e he
      rw [step_edges s u stepped, ← List.drop_one, List.take_drop] at he
      exact noReset e (Nat.add_comm 1 k ▸ List.mem_of_mem_drop he)
    exact ih u t later ran (keeps s u (nextEdge_rst_of_noReset noReset) stepped holds)

/-- KEYLOCK is set in `t` and the key material is in `t` as in `s` (70_reset_and_hazards.md R178). -/
structure LockedKeyOf (s t : State W) : Prop where
  keylock : t.keylock = true
  modulus : t.modulus = s.modulus
  invmult : t.invmult = s.invmult
  priv : t.priv = s.priv
  pub : t.pub = s.pub

/-- A step without reset keeps locked key material (60_exceptions.md R145; 70_reset_and_hazards.md R178). -/
theorem step_keeps_lockedKeyOf (key s t : State) (hr : (nextEdge s).rst = false) (h : step s = .next t)
    (locked : LockedKeyOf key s) : LockedKeyOf key t := by
  obtain ⟨keylock, modulus, invmult, priv, pub⟩ := hostCycle_locked (nextEdge s) (dropEdge s) locked.keylock
  have host : LockedKeyOf key (hostCycle (nextEdge s) (dropEdge s)) :=
    ⟨keylock, modulus.trans locked.modulus, invmult.trans locked.invmult, priv.trans locked.priv, pub.trans locked.pub⟩
  rcases step_cases s t h with ⟨reset, -⟩ | ⟨-, -, rfl⟩ | ⟨-, -, -, o, -, rfl⟩
  · cases hr.symm.trans reset
  · exact host
  · have same := finish_sameHostRegisters o (hostCycle (nextEdge s) (dropEdge s))
    exact ⟨same.keylock.trans host.keylock, same.modulus.trans host.modulus, same.invmult.trans host.invmult,
      same.priv.trans host.priv, same.pub.trans host.pub⟩

/-- Settles O37: every step of the run keeps the locked key, and a reset step leaves the registers after reset. -/
theorem keyMaterialLockedUntilReset : Obligations.KeyMaterialLockedUntilReset := by
  refine ⟨fun k s t hk noReset ran => ?locked, fun s t hr h => ?reset⟩
  case locked =>
    obtain ⟨keylock, modulus, invmult, priv, pub⟩ :=
      run_keeps (LockedKeyOf s) (step_keeps_lockedKeyOf s) k s t noReset ran ⟨hk, rfl, rfl, rfl, rfl⟩
    exact ⟨keylock, modulus, invmult, priv, pub⟩
  case reset =>
    rw [step_of_reset s hr] at h
    cases h
    exact ⟨rfl, rfl, rfl, fun j => ⟨allZero_get (.priv j), allZero_get (.pub j)⟩⟩

/-! ### the end of a command in flight -/

/-- An edge without reset ends the command in flight with DONE set, or the engine does not complete at it and the command stays
in flight (40_command_protocol.md R72, R73). -/
theorem step_in_flight (s t : State) (hb : s.busy = true) (hr : (nextEdge s).rst = false) (h : step s = .next t) :
    (t.busy = false ∧ t.done = true) ∨ ((nextEdge s).completes = false ∧ t.busy = true) := by
  rcases step_cases s t h with ⟨reset, -⟩ | ⟨-, quiet, rfl⟩ | ⟨-, -, -, o, -, rfl⟩
  · cases hr.symm.trans reset
  · exact .inr ⟨by simpa [hb] using quiet, hostCycle_keeps_busy _ _ hb⟩
  · exact .inl ⟨rfl, rfl⟩

/-- With the listed edges `l` and none of them a reset, a command in flight ends at the first of them at which the engine
completes, or at the edge after the last (70_reset_and_hazards.md R181, R183; log 4). -/
theorem flight_ends (l : List Edge) : ∀ s : State, s.edges = l → s.Inv → s.busy = true → NoReset l →
    ∃ (k : Nat) (t : State), k ≤ l.length + 1 ∧ run k s = .next t ∧ t.busy = false ∧ t.done = true := by
  induction l with
  | nil =>
    intro s hl inv hb _
    have next : nextEdge s = idleEdge true := by rw [nextEdge, hl, List.headD_nil]
    obtain ⟨t, stepped⟩ := step_answers s inv
    rcases step_in_flight s t hb (congrArg Edge.rst next) stepped with ended | ⟨quiet, -⟩
    · exact ⟨1, t, le_rfl, run_succ_of_step 0 s t stepped, ended⟩
    · cases quiet.symm.trans (congrArg Edge.completes next)
  | cons e rest ih =>
    intro s hl inv hb noReset
    have next : nextEdge s = e := by rw [nextEdge, hl, List.headD_cons]
    obtain ⟨hr, noReset⟩ := List.forall_mem_cons.1 noReset
    obtain ⟨t, stepped⟩ := step_answers s inv
    rcases step_in_flight s t hb ((congrArg Edge.rst next).trans hr) stepped with ended | ⟨-, busy⟩
    · exact ⟨1, t, Nat.le_add_left 1 _, run_succ_of_step 0 s t stepped, ended⟩
    · have left : t.edges = rest := by rw [step_edges s t stepped, hl, List.tail_cons]
      obtain ⟨k, u, bound, ran, done⟩ := ih t left (stepKeepsInv s t inv stepped) busy noReset
      exact ⟨k + 1, u, Nat.succ_le_succ bound, (run_succ_of_step k s t stepped).trans ran, done⟩

/-- Settles O43: the flight ends within the listed edges or at the one after them. -/
theorem everyFlightEnds : Obligations.EveryFlightEnds := fun s => flight_ends s.edges s rfl

/-! ### the commands on the reset state -/

/-- A command whose outcome is the result 0 completes with RES = 0 (40_command_protocol.md R73). -/
theorem runs_completed_zero {i : Instr} {v : Word} {s : State} {f : Bool} (hb : s.busy = false) (hi : Computing i)
    (hv : i.commandWord = some v) (ho : outcomeOf (opField v) s = some (.result 0 f)) : Runs i s (completed v 0 f s) := by
  obtain ⟨x, value, ran⟩ := runs_completed hb hi hv ho
  obtain rfl : x = 0 := BitVec.toNat_inj.1 value
  exact ran

/-- The outcome of each computing command where every operand and every key register is 0 (70_reset_and_hazards.md R173). -/
theorem outcomeOf_reset :
    outcomeOf 1 State.reset = some (.fault .eZeroMod) ∧ outcomeOf 2 State.reset = some (.result 0 false) ∧
      outcomeOf 3 State.reset = some (.result 0 false) ∧ outcomeOf 4 State.reset = some (.result 0 false) ∧
      outcomeOf 5 State.reset = some (.result 0 false) ∧ outcomeOf 6 State.reset = some (.fault .eZeroMod) := by
  decide

/-- Settles O47: the reset state is at rest, so each command is accepted and its outcome there is delivered. -/
theorem commandsOnResetState : Obligations.CommandsOnResetState := by
  obtain ⟨modinv, gcd, isprime, supchk, ksum, gdec⟩ := outcomeOf_reset
  refine ⟨runs_completed_zero rfl ?_ rfl isprime, runs_completed_zero rfl ?_ rfl gcd, runs_faulted rfl ?_ rfl modinv,
    runs_completed_zero rfl ?_ rfl supchk, runs_completed_zero rfl ?_ rfl ksum, runs_faulted rfl ?_ rfl gdec⟩
  all_goals simp [Computing]

end Sys2Proof.Machine
end
